-- ==== Sys2Proof/Word.lean ====
section
/-! DEFINITION. The value types of the machine: bytes, 16-bit words, the fields of an opcode, register and key numbers.
Every value is unsigned and of a stated width (spec 00_scope.md R9). -/

namespace Sys2Proof

/-- An 8-bit value: a V register, a memory byte, a timer (R20, R26, R31). -/
abbrev Byte := BitVec 8

/-- A 16-bit value: an opcode, PC, I, a stack slot (R22, R23, R25, R90). -/
abbrev Word := BitVec 16

/-- The `addr` field of an opcode, bits 11 to 0 (R91). -/
abbrev Addr12 := BitVec 12

/-- Four bits of an opcode that the instruction does not use (the ignored fields of R92). -/
abbrev Nibble := BitVec 4

/-- A register number x or y: every value 0 to 15 is legal (R93). -/
abbrev Reg := Fin 16

/-- The number of sprite rows n of DRW, 0 to 15 (R93, R213). -/
abbrev RowCount := Fin 16

/-- A key id, 0x0 to 0xF (R29, R247). -/
abbrev KeyId := Fin 16

/-- VF, the register that is also the only flag (R21). -/
abbrev Reg.vf : Reg := 15

end Sys2Proof
end

