-- ==== Sys2Proof/Syntax.lean ====
section
/-! DEFINITION. The instruction set: one constructor for each of the 34 rows of spec/opcode_table.json
(spec 30_encoding.md R96), in the table's order. -/

namespace Sys2Proof

/-- The 34 instructions (R96). Operands are the fields of R91 and R93. A field that the dispatch of R94 does not examine or
that the instruction does not use (`x` of CLS and RET, `y` of SHR and SHL, `n` of SNE Vx, Vy) is kept, so that an instruction
names exactly one opcode word. -/
inductive Instr where
  /-- 00E0, CLS (R211); `x` is not examined (R99). -/
  | cls (x : Nibble)
  /-- 00EE, RET (R141); `x` is not examined (R99). -/
  | ret (x : Nibble)
  /-- 1nnn, JP addr (R143). -/
  | jp (addr : Addr12)
  /-- 2nnn, CALL addr (R145). -/
  | call (addr : Addr12)
  /-- 3xkk, SE Vx, kk (R147). -/
  | seImm (x : Reg) (kk : Byte)
  /-- 4xkk, SNE Vx, kk (R148). -/
  | sneImm (x : Reg) (kk : Byte)
  /-- 5xy0, SE Vx, Vy (R149). -/
  | seReg (x y : Reg)
  /-- 6xkk, LD Vx, kk (R161). -/
  | ldImm (x : Reg) (kk : Byte)
  /-- 7xkk, ADD Vx, kk (R162). -/
  | addImm (x : Reg) (kk : Byte)
  /-- 8xy0, LD Vx, Vy (R163). -/
  | ldReg (x y : Reg)
  /-- 8xy1, OR Vx, Vy (R164). -/
  | orReg (x y : Reg)
  /-- 8xy2, AND Vx, Vy (R165). -/
  | andReg (x y : Reg)
  /-- 8xy3, XOR Vx, Vy (R166). -/
  | xorReg (x y : Reg)
  /-- 8xy4, ADD Vx, Vy (R167). -/
  | addReg (x y : Reg)
  /-- 8xy5, SUB Vx, Vy (R168). -/
  | subReg (x y : Reg)
  /-- 8xy6, SHR Vx (R169); `y` is not used. -/
  | shr (x : Reg) (y : Nibble)
  /-- 8xy7, SUBN Vx, Vy (R170). -/
  | subn (x y : Reg)
  /-- 8xyE, SHL Vx (R171); `y` is not used. -/
  | shl (x : Reg) (y : Nibble)
  /-- 9xy0, SNE Vx, Vy (R150); `n` is not examined (R99). -/
  | sneReg (x y : Reg) (n : Nibble)
  /-- Annn, LD I, addr (R191). -/
  | ldI (addr : Addr12)
  /-- Bnnn, JP V0, addr (R152). -/
  | jpV0 (addr : Addr12)
  /-- Cxkk, RND Vx, kk (R172). -/
  | rnd (x : Reg) (kk : Byte)
  /-- Dxyn, DRW Vx, Vy, n (R213). -/
  | drw (x y : Reg) (n : RowCount)
  /-- Ex9E, SKP Vx (R231). -/
  | skp (x : Reg)
  /-- ExA1, SKNP Vx (R232). -/
  | sknp (x : Reg)
  /-- Fx07, LD Vx, DT (R240). -/
  | ldVxDt (x : Reg)
  /-- Fx0A, LD Vx, K (R236). -/
  | ldVxK (x : Reg)
  /-- Fx15, LD DT, Vx (R241). -/
  | ldDtVx (x : Reg)
  /-- Fx18, LD ST, Vx (R242). -/
  | ldStVx (x : Reg)
  /-- Fx1E, ADD I, Vx (R192). -/
  | addI (x : Reg)
  /-- Fx29, LD F, Vx (R194). -/
  | ldF (x : Reg)
  /-- Fx33, LD B, Vx (R196). -/
  | ldB (x : Reg)
  /-- Fx55, LD [I], Vx (R198). -/
  | storeRegs (x : Reg)
  /-- Fx65, LD Vx, [I] (R200). -/
  | loadRegs (x : Reg)
  deriving DecidableEq, Repr

end Sys2Proof
end

