-- ==== Sys2Proof/Decode.lean ====
section
/-! DEFINITION. From opcode words to instructions and back (spec 30_encoding.md R90 to R100), and the opcode table's masks and
matches (R96). Decoding is total: a word is an instruction or an undefined opcode, named by the row of R97 that lists it. -/

namespace Sys2Proof

/-- The four bits of a field that holds a number 0 to 15 (R93). -/
def nibbleOf (x : Fin 16) : Nibble := .ofFin x

/-- Four bits of w from bit `lo` upwards, as a number 0 to 15 (R91). -/
def nibbleAt (w : Word) (lo : Nat) : Fin 16 := (w.extractLsb' lo 4).toFin

/-- `op` = bits 15 to 12 (R91). -/
def opField (w : Word) : Fin 16 := nibbleAt w 12

/-- `x` = bits 11 to 8 (R91). -/
def xField (w : Word) : Fin 16 := nibbleAt w 8

/-- `y` = bits 7 to 4 (R91). -/
def yField (w : Word) : Fin 16 := nibbleAt w 4

/-- `n` = bits 3 to 0 (R91). -/
def nField (w : Word) : Fin 16 := nibbleAt w 0

/-- `kk` = bits 7 to 0 (R91). -/
def kkField (w : Word) : Byte := w.extractLsb' 0 8

/-- `addr` = bits 11 to 0 (R91). -/
def addrField (w : Word) : Addr12 := w.extractLsb' 0 12

/-- Why a word is an undefined opcode: the five rows of R97. -/
inductive UndefinedRow where
  /-- op 0 and kk neither 0xE0 nor 0xEE. -/
  | op0
  /-- op 5 and n not 0. -/
  | op5
  /-- op 8 and n one of 8 to 0xD, 0xF. -/
  | op8
  /-- op 0xE and kk neither 0x9E nor 0xA1. -/
  | opE
  /-- op 0xF and kk none of the nine defined values. -/
  | opF
  deriving DecidableEq, Repr

/-- What a word decodes to (R94). -/
inductive Decoded where
  | instr (i : Instr)
  | undefined (row : UndefinedRow)
  deriving DecidableEq, Repr

/-- Secondary dispatch of op 0 on kk (R94, D6). -/
def decodeOp0 (w : Word) : Decoded :=
  match kkField w with
  | 0xE0#8 => .instr (.cls (nibbleOf (xField w)))
  | 0xEE#8 => .instr (.ret (nibbleOf (xField w)))
  | _ => .undefined .op0

/-- Secondary dispatch of op 5 on n (R94, D8). -/
def decodeOp5 (w : Word) : Decoded :=
  match nField w with
  | 0 => .instr (.seReg (xField w) (yField w))
  | _ => .undefined .op5

/-- Secondary dispatch of op 8 on n (R94, R95). -/
def decodeOp8 (w : Word) : Decoded :=
  match nField w with
  | 0x0 => .instr (.ldReg (xField w) (yField w))
  | 0x1 => .instr (.orReg (xField w) (yField w))
  | 0x2 => .instr (.andReg (xField w) (yField w))
  | 0x3 => .instr (.xorReg (xField w) (yField w))
  | 0x4 => .instr (.addReg (xField w) (yField w))
  | 0x5 => .instr (.subReg (xField w) (yField w))
  | 0x6 => .instr (.shr (xField w) (nibbleOf (yField w)))
  | 0x7 => .instr (.subn (xField w) (yField w))
  | 0xE => .instr (.shl (xField w) (nibbleOf (yField w)))
  | _ => .undefined .op8

/-- Secondary dispatch of op 0xE on kk (R94). -/
def decodeOpE (w : Word) : Decoded :=
  match kkField w with
  | 0x9E#8 => .instr (.skp (xField w))
  | 0xA1#8 => .instr (.sknp (xField w))
  | _ => .undefined .opE

/-- Secondary dispatch of op 0xF on kk (R94). -/
def decodeOpF (w : Word) : Decoded :=
  match kkField w with
  | 0x07#8 => .instr (.ldVxDt (xField w))
  | 0x0A#8 => .instr (.ldVxK (xField w))
  | 0x15#8 => .instr (.ldDtVx (xField w))
  | 0x18#8 => .instr (.ldStVx (xField w))
  | 0x1E#8 => .instr (.addI (xField w))
  | 0x29#8 => .instr (.ldF (xField w))
  | 0x33#8 => .instr (.ldB (xField w))
  | 0x55#8 => .instr (.storeRegs (xField w))
  | 0x65#8 => .instr (.loadRegs (xField w))
  | _ => .undefined .opF

/-- The decode function of R94: on `op`, then for op 0, 5, 8, 0xE and 0xF on the sub-key. It reads nothing but w (R100). -/
def decode (w : Word) : Decoded :=
  match opField w with
  | 0x0 => decodeOp0 w
  | 0x1 => .instr (.jp (addrField w))
  | 0x2 => .instr (.call (addrField w))
  | 0x3 => .instr (.seImm (xField w) (kkField w))
  | 0x4 => .instr (.sneImm (xField w) (kkField w))
  | 0x5 => decodeOp5 w
  | 0x6 => .instr (.ldImm (xField w) (kkField w))
  | 0x7 => .instr (.addImm (xField w) (kkField w))
  | 0x8 => decodeOp8 w
  | 0x9 => .instr (.sneReg (xField w) (yField w) (nibbleOf (nField w)))
  | 0xA => .instr (.ldI (addrField w))
  | 0xB => .instr (.jpV0 (addrField w))
  | 0xC => .instr (.rnd (xField w) (kkField w))
  | 0xD => .instr (.drw (xField w) (yField w) (nField w))
  | 0xE => decodeOpE w
  | 0xF => decodeOpF w
  | ⟨_ + 16, h⟩ => absurd h (by omega)

/-- The opcode of two consecutive bytes, big-endian (20_memory.md R63): the first byte is bits 15 to 8. -/
def wordOfBytes (hi lo : Byte) : Word := hi ++ lo

/-- The byte at the lower address of an opcode: bits 15 to 8 (R63). -/
def highByte (w : Word) : Byte := w.extractLsb' 8 8

/-- The byte at the higher address of an opcode: bits 7 to 0 (R63). -/
def lowByte (w : Word) : Byte := w.extractLsb' 0 8

/-- Why a list of bytes gives no instruction. -/
inductive ByteReject where
  /-- Fewer than the two bytes every instruction has (R90). -/
  | truncated
  /-- The word is an undefined opcode of this row of R97. -/
  | undefined (row : UndefinedRow)
  deriving DecidableEq, Repr

/-- Decoding on any bytes: the instruction of the first two and the rest, or the reason there is none (R63, R90, R94). -/
def decodeBytes : List Byte → Except ByteReject (Instr × List Byte)
  | hi :: lo :: rest =>
    match decode (wordOfBytes hi lo) with
    | .instr i => .ok (i, rest)
    | .undefined row => .error (.undefined row)
  | [_] => .error .truncated
  | [] => .error .truncated

/-- An opcode word from its four nibbles (R91). -/
def wordOfNibbles (op x y n : Nibble) : Word := op ++ x ++ y ++ n

/-- An opcode word of the format XKK or XS: op, x, kk (R92). -/
def wordXkk (op : Nibble) (x : Reg) (kk : Byte) : Word := op ++ nibbleOf x ++ kk

/-- An opcode word of the format XYN: op, x, y, n (R92). -/
def wordXyn (op : Nibble) (x y : Reg) (n : Nibble) : Word := wordOfNibbles op (nibbleOf x) (nibbleOf y) n

/-- An opcode word of the format NNN: op, addr (R92). -/
def wordNnn (op : Nibble) (addr : Addr12) : Word := op ++ addr

/-- The word of an instruction, by the patterns of R96. -/
def encode : Instr → Word
  | .cls x => wordOfNibbles 0x0 x 0xE 0x0
  | .ret x => wordOfNibbles 0x0 x 0xE 0xE
  | .jp addr => wordNnn 0x1 addr
  | .call addr => wordNnn 0x2 addr
  | .seImm x kk => wordXkk 0x3 x kk
  | .sneImm x kk => wordXkk 0x4 x kk
  | .seReg x y => wordXyn 0x5 x y 0x0
  | .ldImm x kk => wordXkk 0x6 x kk
  | .addImm x kk => wordXkk 0x7 x kk
  | .ldReg x y => wordXyn 0x8 x y 0x0
  | .orReg x y => wordXyn 0x8 x y 0x1
  | .andReg x y => wordXyn 0x8 x y 0x2
  | .xorReg x y => wordXyn 0x8 x y 0x3
  | .addReg x y => wordXyn 0x8 x y 0x4
  | .subReg x y => wordXyn 0x8 x y 0x5
  | .shr x y => wordOfNibbles 0x8 (nibbleOf x) y 0x6
  | .subn x y => wordXyn 0x8 x y 0x7
  | .shl x y => wordOfNibbles 0x8 (nibbleOf x) y 0xE
  | .sneReg x y n => wordXyn 0x9 x y n
  | .ldI addr => wordNnn 0xA addr
  | .jpV0 addr => wordNnn 0xB addr
  | .rnd x kk => wordXkk 0xC x kk
  | .drw x y n => wordXyn 0xD x y (nibbleOf n)
  | .skp x => wordXkk 0xE x 0x9E
  | .sknp x => wordXkk 0xE x 0xA1
  | .ldVxDt x => wordXkk 0xF x 0x07
  | .ldVxK x => wordXkk 0xF x 0x0A
  | .ldDtVx x => wordXkk 0xF x 0x15
  | .ldStVx x => wordXkk 0xF x 0x18
  | .addI x => wordXkk 0xF x 0x1E
  | .ldF x => wordXkk 0xF x 0x29
  | .ldB x => wordXkk 0xF x 0x33
  | .storeRegs x => wordXkk 0xF x 0x55
  | .loadRegs x => wordXkk 0xF x 0x65

/-- The number of an instruction's row in the table of R96, 1 to 34. -/
def tableRow : Instr → Nat
  | .cls _ => 1
  | .ret _ => 2
  | .jp _ => 3
  | .call _ => 4
  | .seImm _ _ => 5
  | .sneImm _ _ => 6
  | .seReg _ _ => 7
  | .ldImm _ _ => 8
  | .addImm _ _ => 9
  | .ldReg _ _ => 10
  | .orReg _ _ => 11
  | .andReg _ _ => 12
  | .xorReg _ _ => 13
  | .addReg _ _ => 14
  | .subReg _ _ => 15
  | .shr _ _ => 16
  | .subn _ _ => 17
  | .shl _ _ => 18
  | .sneReg _ _ _ => 19
  | .ldI _ => 20
  | .jpV0 _ => 21
  | .rnd _ _ => 22
  | .drw _ _ _ => 23
  | .skp _ => 24
  | .sknp _ => 25
  | .ldVxDt _ => 26
  | .ldVxK _ => 27
  | .ldDtVx _ => 28
  | .ldStVx _ => 29
  | .addI _ => 30
  | .ldF _ => 31
  | .ldB _ => 32
  | .storeRegs _ => 33
  | .loadRegs _ => 34

/-- The mask and the match of each row of R96, in the table's order: a word w selects a row when (w and mask) = match. -/
def tableMaskMatch : List (Word × Word) :=
  [(0xF0FF, 0x00E0), (0xF0FF, 0x00EE), (0xF000, 0x1000), (0xF000, 0x2000), (0xF000, 0x3000), (0xF000, 0x4000)] ++
  [(0xF00F, 0x5000), (0xF000, 0x6000), (0xF000, 0x7000)] ++
  [(0xF00F, 0x8000), (0xF00F, 0x8001), (0xF00F, 0x8002), (0xF00F, 0x8003), (0xF00F, 0x8004), (0xF00F, 0x8005)] ++
  [(0xF00F, 0x8006), (0xF00F, 0x8007), (0xF00F, 0x800E), (0xF000, 0x9000), (0xF000, 0xA000), (0xF000, 0xB000)] ++
  [(0xF000, 0xC000), (0xF000, 0xD000), (0xF0FF, 0xE09E), (0xF0FF, 0xE0A1)] ++
  [(0xF0FF, 0xF007), (0xF0FF, 0xF00A), (0xF0FF, 0xF015), (0xF0FF, 0xF018), (0xF0FF, 0xF01E)] ++
  [(0xF0FF, 0xF029), (0xF0FF, 0xF033), (0xF0FF, 0xF055), (0xF0FF, 0xF065)]

/-- Row `r` of the table (1 to 34) selects the word w (R96). -/
def rowSelects (r : Nat) (w : Word) : Bool :=
  match tableMaskMatch[r - 1]? with
  | some (mask, value) => 1 ≤ r && (w &&& mask) == value
  | none => false

/-- The bytes of an instruction whose bits are `w`, as the hardware stores them: one 16-bit word, high byte first (R63).
Bits above `nbits` are zero. -/
def tableBytes (nbits w : Nat) : List Byte :=
  let word : Word := BitVec.ofNat 16 (w % 2 ^ nbits)
  [highByte word, lowByte word]

/-- The instruction the decoder reads from an instruction whose bits are `w`, numbered as spec/opcode_table.json numbers
them (bit 0 is the least significant bit of the word). -/
def decodeTableWord (nbits w : Nat) : Option Instr :=
  match decodeBytes (tableBytes nbits w) with
  | .ok (i, _) => some i
  | .error _ => none

end Sys2Proof
end

