-- ==== Sys2Proof/Config.lean ====
section
/-! DEFINITION. The parameters of the hardware (spec 00_scope.md R4) and what the spec leaves open:
the random byte of a STEP (a free value without a body, R13 and D18) and the font (R41 and D17). -/

namespace Sys2Proof

/-- MEM_SIZE: the bytes of memory, addresses 0x000 to 0xFFF (R4, R60). -/
abbrev Config.memSize : Nat := 4096

/-- FONT_LEN: 16 glyphs of 5 bytes at 0x000 to 0x04F (R4). -/
abbrev Config.fontLen : Nat := 80

/-- PROG_BASE: where LOAD puts the ROM and where PC starts (R4, R70). -/
abbrev Config.progBase : Nat := 0x200

/-- ROM_MAX: the largest ROM, 4096 - 0x200 bytes (R4, R292). -/
abbrev Config.romMax : Nat := 3584

/-- STACK_DEPTH: the return addresses the call stack holds (R4, R25). -/
abbrev Config.stackDepth : Nat := 12

/-- FB_H: the rows of the framebuffer (R4, R28). -/
abbrev Config.fbHeight : Nat := 32

/-- FB_W: the columns of the framebuffer (R4, R28). -/
abbrev Config.fbWidth : Nat := 64

/-- A font: the parameter FONT of LOAD, 80 bytes, glyph d at 5 * d (R41, D17). -/
abbrev Font := Vector Byte 80

/-- PRESUMED (log entry 3; unsafe): the default of FONT, the customary CHIP-8 font of R41, which the spec itself takes from
general knowledge. A claim about another font speaks of `State.load` with that font. -/
def Config.font : Font := #v[
  0xF0#8, 0x90#8, 0x90#8, 0x90#8, 0xF0#8,
  0x20#8, 0x60#8, 0x20#8, 0x20#8, 0x70#8,
  0xF0#8, 0x10#8, 0xF0#8, 0x80#8, 0xF0#8,
  0xF0#8, 0x10#8, 0xF0#8, 0x10#8, 0xF0#8,
  0x90#8, 0x90#8, 0xF0#8, 0x10#8, 0x10#8,
  0xF0#8, 0x80#8, 0xF0#8, 0x10#8, 0xF0#8,
  0xF0#8, 0x80#8, 0xF0#8, 0x90#8, 0xF0#8,
  0xF0#8, 0x10#8, 0x20#8, 0x40#8, 0x40#8,
  0xF0#8, 0x90#8, 0xF0#8, 0x90#8, 0xF0#8,
  0xF0#8, 0x90#8, 0xF0#8, 0x10#8, 0xF0#8,
  0xF0#8, 0x90#8, 0xF0#8, 0x90#8, 0x90#8,
  0xE0#8, 0x90#8, 0xE0#8, 0x90#8, 0xE0#8,
  0xF0#8, 0x80#8, 0x80#8, 0x80#8, 0xF0#8,
  0xE0#8, 0x90#8, 0x90#8, 0x90#8, 0xE0#8,
  0xF0#8, 0x80#8, 0xF0#8, 0x80#8, 0xF0#8,
  0xF0#8, 0x80#8, 0xF0#8, 0x80#8, 0x80#8]

/-- What a memory address reads as while nothing has been stored there: the font at 0x000 to 0x04F and zero elsewhere,
the reset contents of R40 and R291 before any ROM byte. -/
def Config.resetByte (a : Nat) : Byte :=
  if h : a < Config.fontLen then Config.font[a] else 0

/-- The random source of Cxkk (R13, D18): the n-th byte drawn, under no law. It has no body, so nothing can be proved about
its values: a claim that mentions it holds for every source. Log entry 1; safe. -/
opaque Config.rndInput : Nat → Byte

end Sys2Proof
end

