-- ==== Sys2Proof/Machine/State.lean ====
section
/-! DEFINITION. The state of the core as plain data (spec 10_state.md), the reasons a step can stop, and the state after
reset (R40). -/

namespace Sys2Proof.Machine

/-- The key-wait states that last across STEPs (R30); the source's Done is not stored (D22). -/
inductive KeyWait where
  | waiting
  | keyDown
  deriving DecidableEq, Repr

/-- The three run-time conditions (R251). -/
inductive Condition where
  /-- Code 1: a CALL with twelve return addresses held. -/
  | stackOverflow
  /-- Code 2: a RET with an empty stack. -/
  | stackUnderflow
  /-- Code 3: a word that selects no instruction. -/
  | undefinedOpcode
  deriving DecidableEq, Repr

/-- The report output of a STEP (R252). -/
inductive Report where
  /-- Code 0: the STEP completed with no condition. -/
  | none
  /-- A condition, with the pre-step PC and the opcode word of the instruction that raised it. -/
  | raised (c : Condition) (pc w : Word)
  deriving DecidableEq, Repr

/-- The causes of a LoadError (R253, R292). -/
inductive LoadError where
  /-- No ROM is supplied. -/
  | missing
  /-- The ROM has no byte. -/
  | empty
  /-- The ROM has more than 3584 bytes. -/
  | oversized
  deriving DecidableEq, Repr

/-- The ways the machine stops. The first two are the spec's STOPs (R12, R256). -/
inductive Fault where
  /-- STOP AddrOutOfRange: raised by the fetch, DRW, LD B, LD [I] and LD Vx,[I] at an address above 0xFFF (R72, R256).
  Safe: nothing is said of what a core does there. -/
  | addrOutOfRange
  /-- STOP KeyIndexOutOfRange: raised by SKP and SKNP when V[x] is above 15 (R231, R232, R256).
  Safe: nothing is said of what a core does there. -/
  | keyIndexOutOfRange
  /-- LoadError: raised by the host operation LOAD alone, never by a step; after it there is no state (R253, R292).
  Safe: the spec itself says the failure is fatal. -/
  | loadError (e : LoadError)
  deriving DecidableEq, Repr

/-- The ways the model declines an instruction. No arm of `exec` does: every row of the opcode table has its meaning. -/
inductive Refusal where
  /-- An instruction without a meaning, raised by `exec` alone, by its mnemonic in spec/opcode_table.json.
  Safe: nothing is said of that instruction. -/
  | notModelled (mnemonic : String)
  deriving DecidableEq, Repr

/-- The framebuffer FB[row][col], row 0 at the top and col 0 at the left; true is a set pixel (R28). -/
abbrev Framebuffer := Vector (Vector Bool 64) 32

/-- MEM (R31, R60) as the list of the cells that differ from what an unlisted address reads as, by rising address. -/
abbrev Memory := List Host.Cell

/-- The state of the core. The last three fields are the model's own: an output and an input of STEP that the spec does not
count as state (R33, R252), and the counter that makes each draw a fresh one (log entries 1 and 4). -/
structure State where
  /-- V[0..15] (R20). -/
  v : Vector Byte 16
  /-- The index register I, all 16 bits kept (R22). -/
  i : Word
  /-- PC (R23). -/
  pc : Word
  /-- STACK[0..11], stale slots included (R25). -/
  stack : Vector Word 12
  /-- The depth of the stack, SP + 1 (R25, D26). -/
  depth : Fin 13
  /-- The delay timer (R26). -/
  dt : Byte
  /-- The sound timer; its value is an output for the host (R27). -/
  st : Byte
  /-- FB (R28). -/
  fb : Framebuffer
  /-- KEY[0..15], true when pressed (R29). -/
  keys : Vector Bool 16
  /-- KW.state (R30). -/
  kwState : KeyWait
  /-- KW.key, meaningful in KeyDown only and kept outside it (R30, D22). -/
  kwKey : KeyId
  /-- MEM (R31). -/
  mem : Memory
  /-- The report output of the latest STEP (R252). -/
  report : Report
  /-- The argument `rnd` of the current STEP (R13). -/
  rnd : Byte
  /-- How many bytes `step` has drawn from the free random source. -/
  draws : Nat
  deriving DecidableEq, Repr

/-- The state right after reset: R40's table, with no ROM byte in the program region. PC, SP and MEM are the source's; the
zeros of the other fields are DESIGN CHOICE (log entry 2; unsafe), the spec's D16. -/
def State.reset : State where
  v := .replicate 16 0
  i := 0
  pc := 0x200
  stack := .replicate 12 0
  depth := 0
  dt := 0
  st := 0
  fb := .replicate 32 (.replicate 64 false)
  keys := .replicate 16 false
  kwState := .waiting
  kwKey := 0
  mem := []
  report := .none
  rnd := 0
  draws := 0

end Sys2Proof.Machine
end

