-- ==== Sys2Proof/Machine/Ops.lean ====
section
/-! DEFINITION. The named operations over memory, registers, stack, framebuffer and keypad that every meaning is built from
(spec 00_scope.md R10 to R12), and reporting a condition, which is all this hardware has for an exception (R250 to R263):
nothing is saved, no mode changes, no handler is entered and there is no return. -/

namespace Sys2Proof.Machine

/-! ### Memory -/

/-- The canonical form of a memory: addresses strictly rising and below 4096, no cell equal to what its address reads as when
unlisted. -/
abbrev Memory.wf (m : Memory) : Prop :=
  m.Pairwise (fun c d => c.1 < d.1) ∧ ∀ c ∈ m, c.1 < Config.memSize ∧ c.2 ≠ Config.resetByte c.1

/-- The byte at address `a` (MemRead of one byte, R10, for an address in range). -/
def Memory.read (m : Memory) (a : Nat) : Byte :=
  match m with
  | [] => Config.resetByte a
  | (b, v) :: m => if a = b then v else Memory.read m a

/-- The memory without its cell at `a`: that address reads as after reset. -/
def Memory.erase (m : Memory) (a : Nat) : Memory :=
  m.filter (fun c => c.1 ≠ a)

/-- The cell `(a, v)` put in its place by address. -/
def Memory.insertCell (m : Memory) (a : Nat) (v : Byte) : Memory :=
  match m with
  | [] => [(a, v)]
  | (b, u) :: m => if a < b then (a, v) :: (b, u) :: m else (b, u) :: Memory.insertCell m a v

/-- The memory with the byte at `a` replaced (MemWrite of one byte, R10, for an address in range). -/
def Memory.write (m : Memory) (a : Nat) (v : Byte) : Memory :=
  if v = Config.resetByte a then Memory.erase m a else Memory.insertCell (Memory.erase m a) a v

/-- The memory with bytes stored at `a`, `a + 1`, ... in ascending address order (R64). -/
def Memory.writeBytes (m : Memory) (a : Nat) : List Byte → Memory
  | [] => m
  | v :: vs => Memory.writeBytes (Memory.write m a v) (a + 1) vs

/-- Whether every one of the `n` addresses from `a` upwards exists, that is lies in 0..0xFFF (R60, R72). For `n` = 0 no
address is accessed and the check holds (R219). -/
def rangeOk (a n : Nat) : Bool := n == 0 || decide (a + n ≤ Config.memSize)

/-! ### Registers -/

/-- `V[x]` read (R10). -/
def State.getV (s : State) (x : Reg) : Byte := s.v[x]

/-- `V[x] <- v` (R10). -/
def State.setV (s : State) (x : Reg) (v : Byte) : State := { s with v := s.v.set x v }

/-- A result to V[x] and then a flag to VF, "always the last register written" (R21, R160): with x = 0xF the flag stays. -/
def State.setVThenFlag (s : State) (x : Reg) (result flag : Byte) : State :=
  (s.setV x result).setV .vf flag

/-- `I <- v` (R22). -/
def State.setI (s : State) (v : Word) : State := { s with i := v }

/-- `PC <- target` (R10). -/
def State.setPc (s : State) (target : Word) : State := { s with pc := target }

/-- The automatic advance, and the further advance of a taken skip: PC <- (PC + 2) mod 65536 (R122). -/
def State.advancePc (s : State) : State := s.setPc (s.pc + 2)

/-- The key wait's undoing of the advance: PC <- PC - 2 (R122, R236). -/
def State.retryPc (s : State) : State := s.setPc (s.pc - 2)

/-- A skip: the following instruction is passed over when the condition holds (R127, R140). -/
def State.skipIf (s : State) (c : Bool) : State := if c then s.advancePc else s

/-- Registers V[k], V[k+1], ... written from a list of bytes, as many as there are registers (R200). -/
def State.setVs (s : State) (k : Nat) : List Byte → State
  | [] => s
  | v :: vs => if h : k < 16 then State.setVs (s.setV ⟨k, h⟩ v) (k + 1) vs else s

/-- V[0..x] as a list, V[0] first (R198). -/
def State.firstVs (s : State) (x : Reg) : List Byte := s.v.toList.take (x.val + 1)

/-- The `n` bytes at `a` upwards (R64). -/
def State.readBytes (s : State) (a n : Nat) : List Byte :=
  (List.range n).map (fun k => s.mem.read (a + k))

/-- Bytes stored at `a` upwards (R64). -/
def State.storeBytes (s : State) (a : Nat) (vs : List Byte) : State :=
  { s with mem := s.mem.writeBytes a vs }

/-- `DT <- v` (R26). -/
def State.setDt (s : State) (v : Byte) : State := { s with dt := v }

/-- `ST <- v` (R27). -/
def State.setSt (s : State) (v : Byte) : State := { s with st := v }

/-! ### The call stack -/

/-- SP, the source's `stack_addr`: -1 when empty, else the index of the top (R25). -/
def State.sp (s : State) : Int := (s.depth.val : Int) - 1

/-- A return address pushed, or none when twelve are held (R145). -/
def State.push (s : State) (a : Word) : Option State :=
  if h : s.depth.val < 12 then
    some { s with stack := s.stack.set s.depth.val a, depth := ⟨s.depth.val + 1, by omega⟩ }
  else none

/-- The top return address popped, or none when the stack is empty; the slot keeps its value (R141). -/
def State.pop (s : State) : Option (Word × State) :=
  if h : 0 < s.depth.val then
    some (s.stack[s.depth.val - 1], { s with depth := ⟨s.depth.val - 1, by omega⟩ })
  else none

/-! ### Reports: this hardware's whole counterpart of an exception -/

/-- `report c` (R11): the condition is presented with the pre-step PC and the opcode word (R252). Inside a STEP, PC is already
P + 2 (R120). It saves nothing, changes no other state and diverts nothing (R262). -/
def State.raise (s : State) (c : Condition) (w : Word) : State :=
  { s with report := .raised c (s.pc - 2) w }

/-- The numeric code of a condition (R251, D20). -/
def Condition.code : Condition → Nat
  | .stackOverflow => 1
  | .stackUnderflow => 2
  | .undefinedOpcode => 3

/-- The report code of a STEP (R251, D20): 0 when nothing is reported. -/
def Report.code : Report → Nat
  | .none => 0
  | .raised c _ _ => c.code

/-! ### The framebuffer -/

/-- FB[row][col], false outside the grid. -/
def Framebuffer.pixel (fb : Framebuffer) (row col : Nat) : Bool :=
  if h : row < 32 ∧ col < 64 then fb[row][col] else false

/-- FB[row][col] <- b; a position outside the grid is not written. -/
def Framebuffer.setPixel (fb : Framebuffer) (row col : Nat) (b : Bool) : Framebuffer :=
  if h : row < 32 ∧ col < 64 then fb.set row (fb[row].set col b) else fb

/-- The framebuffer with every pixel false (R211). -/
def Framebuffer.clear : Framebuffer := .replicate 32 (.replicate 64 false)

/-- One pixel of the blit (R213): clipped, not wrapped (R216); the pair carries the framebuffer and whether a set pixel has been
turned off so far (R217). -/
def blitPixel (p : Framebuffer × Bool) (row col : Nat) (bit : Bool) : Framebuffer × Bool :=
  if col ≤ 63 ∧ row ≤ 31 then
    let old := p.1.pixel row col
    (p.1.setPixel row col (old ^^ bit), p.2 || (old && bit))
  else p

/-- One sprite row of the blit: column c takes bit 7 - c, the most significant bit leftmost (R215). -/
def blitRow (p : Framebuffer × Bool) (row x0 : Nat) (b : Byte) : Framebuffer × Bool :=
  (List.range 8).foldl (fun p c => blitPixel p row (x0 + c) (b.getLsbD (7 - c))) p

/-- The blit of `n` sprite rows from memory at `a`, at start column `x0` and start row `y0` (R213). -/
def blit (m : Memory) (a n x0 y0 : Nat) (p : Framebuffer × Bool) : Framebuffer × Bool :=
  (List.range n).foldl (fun p r => blitRow p (y0 + r) x0 (m.read (a + r))) p

/-! ### The keypad -/

/-- KEY[k] (R29). -/
def State.key (s : State) (k : KeyId) : Bool := s.keys[k]

/-- The least pressed key, by the ascending scan of the key wait (R236). -/
def State.firstKey (s : State) : Option KeyId := (List.finRange 16).find? s.key

/-! ### Instruction fetch -/

/-- The fetch of R121: the two bytes at PC and PC + 1, big-endian (R63), or none when one of them is above 0xFFF. -/
def State.fetch (s : State) : Option Word :=
  if rangeOk s.pc.toNat 2 then some (wordOfBytes (s.mem.read s.pc.toNat) (s.mem.read (s.pc.toNat + 1))) else none

/-- An opcode word placed at address `a`, high byte first (R63). -/
def State.placeWord (s : State) (a : Nat) (w : Word) : State :=
  s.storeBytes a [highByte w, lowByte w]

end Sys2Proof.Machine
end

