-- ==== Sys2Proof/Machine/Operands.lean ====
section
/-! DEFINITION. The operand forms (spec 30_encoding.md R93, 43_index_memory.md R190): how a field of the word or the contents
of a register becomes the value an instruction works on. -/

namespace Sys2Proof.Machine

/-- `addr` zero-extended to the 16 bits of PC or I (R93). -/
def zextAddr (addr : Addr12) : Word := addr.setWidth 16

/-- A V register's byte zero-extended to 16 bits (R152, R192). -/
def zextByte (b : Byte) : Word := b.setWidth 16

/-- A key id as the byte that the key wait delivers (R236). -/
def keyByte (k : KeyId) : Byte := BitVec.ofNat 8 k.val

/-- The effective address I, an exact integer that is never reduced (R190). -/
def State.indexAddr (s : State) : Nat := s.i.toNat

/-- The key id a register holds, or none when it is above 15 (R231, R232). -/
def keyOperand (b : Byte) : Option KeyId :=
  if h : b.toNat < 16 then some ⟨b.toNat, h⟩ else none

/-- DRW's start column: V[x] modulo 64 (R214). -/
def State.startCol (s : State) (x : Reg) : Nat := (s.getV x).toNat % 64

/-- DRW's start row: V[y] modulo 32 (R214). -/
def State.startRow (s : State) (y : Reg) : Nat := (s.getV y).toNat % 32

/-- The address of the font glyph for the low nibble of a byte: 5 times it (R194). -/
def glyphAddr (b : Byte) : Word := BitVec.ofNat 16 ((b &&& 0x0F).toNat * 5)

/-- The three decimal digits of a byte: hundreds, tens, units (R196). -/
def decimalDigits (b : Byte) : List Byte :=
  [BitVec.ofNat 8 (b.toNat / 100), BitVec.ofNat 8 (b.toNat / 10 % 10), BitVec.ofNat 8 (b.toNat % 10)]

/-- V[0] + addr (R152); at most 0x10FE. -/
def State.indexedTarget (s : State) (addr : Addr12) : Word := zextByte (s.getV 0) + zextAddr addr

end Sys2Proof.Machine
end

