-- ==== Sys2Proof/Machine/ControlFlow.lean ====
section
/-! DEFINITION. Control transfer: RET, JP, CALL, SE, SNE, JP V0 (spec 41_control_flow.md). Every meaning runs with PC already at
the post-fetch value P + 2 (R120). None can STOP and none writes a V register (R140). -/

namespace Sys2Proof.Machine

/-- RET, R141: pop into PC; on an empty stack report StackUnderflow and leave PC at P + 2 (D21). -/
def execRet (x : Nibble) (s : State) : Host.Outcome State Fault Refusal :=
  match s.pop with
  | some (a, s') => .next (s'.setPc a)
  | none => .next (s.raise .stackUnderflow (encode (.ret x)))

/-- JP addr, R143. -/
def execJp (addr : Addr12) (s : State) : Host.Outcome State Fault Refusal :=
  .next (s.setPc (zextAddr addr))

/-- CALL addr, R145: push the post-fetch PC and jump; on a full stack report StackOverflow and discard the call (C3). -/
def execCall (addr : Addr12) (s : State) : Host.Outcome State Fault Refusal :=
  match s.push s.pc with
  | some s' => .next (s'.setPc (zextAddr addr))
  | none => .next (s.raise .stackOverflow (encode (.call addr)))

/-- SE Vx, kk, R147. -/
def execSeImm (x : Reg) (kk : Byte) (s : State) : Host.Outcome State Fault Refusal :=
  .next (s.skipIf (s.getV x == kk))

/-- SNE Vx, kk, R148. -/
def execSneImm (x : Reg) (kk : Byte) (s : State) : Host.Outcome State Fault Refusal :=
  .next (s.skipIf (s.getV x != kk))

/-- SE Vx, Vy, R149. -/
def execSeReg (x y : Reg) (s : State) : Host.Outcome State Fault Refusal :=
  .next (s.skipIf (s.getV x == s.getV y))

/-- SNE Vx, Vy, R150; the n field is not examined (R99). -/
def execSneReg (x y : Reg) (s : State) : Host.Outcome State Fault Refusal :=
  .next (s.skipIf (s.getV x != s.getV y))

/-- JP V0, addr, R152. -/
def execJpV0 (addr : Addr12) (s : State) : Host.Outcome State Fault Refusal :=
  .next (s.setPc (s.indexedTarget addr))

end Sys2Proof.Machine
end

