-- ==== Sys2Proof/Machine/Flags.lean ====
section
/-! DEFINITION. The flag computations: what the seven flag-setting instructions write to VF, always 0 or 1
(spec 10_state.md R21, 42_load_alu.md R175). Sums are exact integers and are compared before they are narrowed (R9). -/

namespace Sys2Proof.Machine

/-- A flag as the byte VF receives. -/
def flagByte (b : Bool) : Byte := if b then 1 else 0

/-- Carry of an 8-bit sum: 1 when the exact sum exceeds 255 (R167). -/
def carryFlag (a b : Byte) : Byte := flagByte (255 < a.toNat + b.toNat)

/-- NOT borrow of a - b: 1 when a >= b (R168, R170). -/
def notBorrowFlag (a b : Byte) : Byte := flagByte (b.toNat ≤ a.toNat)

/-- The bit a right shift pushes out: old bit 0 (R169). -/
def shiftRightFlag (a : Byte) : Byte := flagByte (a.getLsbD 0)

/-- The bit a left shift pushes out: old bit 7 (R171). -/
def shiftLeftFlag (a : Byte) : Byte := flagByte (a.getLsbD 7)

/-- ADD I's flag: 1 when the exact sum I + V[x] exceeds 0xFFF (R192, D3). -/
def indexFlag (i : Word) (b : Byte) : Byte := flagByte (0xFFF < i.toNat + b.toNat)

/-- DRW's collision flag: 1 when a set pixel was turned off (R217). -/
def collisionFlag (hit : Bool) : Byte := flagByte hit

end Sys2Proof.Machine
end

