-- ==== Sys2Proof/Machine/Display.lean ====
section
/-! DEFINITION. Display: CLS and DRW (spec 44_display.md). -/

namespace Sys2Proof.Machine

/-- CLS, R211: VF is unchanged. -/
def execCls (s : State) : Host.Outcome State Fault Refusal :=
  .next { s with fb := Framebuffer.clear }

/-- The framebuffer and the collision that DRW leaves (R213): the coordinates are read before VF is written (R214), and the
flag starts at 0. -/
def State.drawn (s : State) (x y : Reg) (n : RowCount) : Framebuffer × Bool :=
  blit s.mem s.indexAddr n.val (s.startCol x) (s.startRow y) (s.fb, false)

/-- DRW Vx, Vy, n, R213: every sprite row is range-checked first, clipped or not (D15). -/
def execDrw (x y : Reg) (n : RowCount) (s : State) : Host.Outcome State Fault Refusal :=
  if rangeOk s.indexAddr n.val then
    .next ({ s with fb := (s.drawn x y n).1 }.setV .vf (collisionFlag (s.drawn x y n).2))
  else .fault .addrOutOfRange

end Sys2Proof.Machine
end

