-- ==== Sys2Proof/Machine/IndexMemory.lean ====
section
/-! DEFINITION. Index register and memory transfer: LD I, ADD I, LD F, LD B, LD [I], LD Vx,[I] (spec 43_index_memory.md).
An instruction that accesses MEM checks its whole address range before its first write (R190); I is not changed by an access
(D11). -/

namespace Sys2Proof.Machine

/-- LD I, addr, R191. -/
def execLdI (addr : Addr12) (s : State) : Host.Outcome State Fault Refusal :=
  .next (s.setI (zextAddr addr))

/-- ADD I, Vx, R192: the sum modulo 65536 to I, then the flag of the exact sum to VF (D3). -/
def execAddI (x : Reg) (s : State) : Host.Outcome State Fault Refusal :=
  .next ((s.setI (s.i + zextByte (s.getV x))).setV .vf (indexFlag s.i (s.getV x)))

/-- LD F, Vx, R194: no memory access. -/
def execLdF (x : Reg) (s : State) : Host.Outcome State Fault Refusal :=
  .next (s.setI (glyphAddr (s.getV x)))

/-- LD B, Vx, R196. -/
def execLdB (x : Reg) (s : State) : Host.Outcome State Fault Refusal :=
  if rangeOk s.indexAddr 3 then .next (s.storeBytes s.indexAddr (decimalDigits (s.getV x))) else .fault .addrOutOfRange

/-- LD [I], Vx, R198. -/
def execStoreRegs (x : Reg) (s : State) : Host.Outcome State Fault Refusal :=
  if rangeOk s.indexAddr (x.val + 1) then .next (s.storeBytes s.indexAddr (s.firstVs x)) else .fault .addrOutOfRange

/-- LD Vx, [I], R200. -/
def execLoadRegs (x : Reg) (s : State) : Host.Outcome State Fault Refusal :=
  if rangeOk s.indexAddr (x.val + 1) then .next (s.setVs 0 (s.readBytes s.indexAddr (x.val + 1)))
  else .fault .addrOutOfRange

end Sys2Proof.Machine
end

