-- ==== Sys2Proof/Machine/KeypadTimers.lean ====
section
/-! DEFINITION. Keypad and timers: SKP, SKNP, LD Vx,K, LD Vx,DT, LD DT,Vx, LD ST,Vx (spec 45_keypad_timers.md). None writes a
flag, accesses MEM or reports (R230). -/

namespace Sys2Proof.Machine

/-- SKP Vx, R231: a level test of the key V[x] names; STOP when V[x] is above 15 (D5). -/
def execSkp (x : Reg) (s : State) : Host.Outcome State Fault Refusal :=
  match keyOperand (s.getV x) with
  | some k => .next (s.skipIf (s.key k))
  | none => .fault .keyIndexOutOfRange

/-- SKNP Vx, R232. -/
def execSknp (x : Reg) (s : State) : Host.Outcome State Fault Refusal :=
  match keyOperand (s.getV x) with
  | some k => .next (s.skipIf (!s.key k))
  | none => .fault .keyIndexOutOfRange

/-- LD Vx, DT, R240. -/
def execLdVxDt (x : Reg) (s : State) : Host.Outcome State Fault Refusal :=
  .next (s.setV x s.dt)

/-- LD Vx, K, R236: one STEP of the key wait. In Waiting the least pressed key is latched, if any, and the instruction is
retried; in KeyDown it is retried while the key is held, and the key id is delivered once it is released. -/
def execLdVxK (x : Reg) (s : State) : Host.Outcome State Fault Refusal :=
  match s.kwState with
  | .waiting =>
    match s.firstKey with
    | some k => .next { s.retryPc with kwState := .keyDown, kwKey := k }
    | none => .next s.retryPc
  | .keyDown =>
    if s.key s.kwKey then .next s.retryPc
    else .next { s.setV x (keyByte s.kwKey) with kwState := .waiting }

/-- LD DT, Vx, R241. -/
def execLdDtVx (x : Reg) (s : State) : Host.Outcome State Fault Refusal :=
  .next (s.setDt (s.getV x))

/-- LD ST, Vx, R242. -/
def execLdStVx (x : Reg) (s : State) : Host.Outcome State Fault Refusal :=
  .next (s.setSt (s.getV x))

end Sys2Proof.Machine
end

