-- ==== Sys2Proof/Machine/LoadAlu.lean ====
section
/-! DEFINITION. Register load and arithmetic: LD, ADD, OR, AND, XOR, SUB, SHR, SUBN, SHL, RND (spec 42_load_alu.md).
Sources are read first, then V[x] is written, then VF where a flag is set (R160). None can STOP and none reports. -/

namespace Sys2Proof.Machine

/-- LD Vx, kk, R161. -/
def execLdImm (x : Reg) (kk : Byte) (s : State) : Host.Outcome State Fault Refusal :=
  .next (s.setV x kk)

/-- ADD Vx, kk, R162: modulo 256, no flag. -/
def execAddImm (x : Reg) (kk : Byte) (s : State) : Host.Outcome State Fault Refusal :=
  .next (s.setV x (s.getV x + kk))

/-- LD Vx, Vy, R163. -/
def execLdReg (x y : Reg) (s : State) : Host.Outcome State Fault Refusal :=
  .next (s.setV x (s.getV y))

/-- OR Vx, Vy, R164: VF unchanged (D10). -/
def execOrReg (x y : Reg) (s : State) : Host.Outcome State Fault Refusal :=
  .next (s.setV x (s.getV x ||| s.getV y))

/-- AND Vx, Vy, R165: VF unchanged (D10). -/
def execAndReg (x y : Reg) (s : State) : Host.Outcome State Fault Refusal :=
  .next (s.setV x (s.getV x &&& s.getV y))

/-- XOR Vx, Vy, R166: VF unchanged (D10). -/
def execXorReg (x y : Reg) (s : State) : Host.Outcome State Fault Refusal :=
  .next (s.setV x (s.getV x ^^^ s.getV y))

/-- ADD Vx, Vy, R167. -/
def execAddReg (x y : Reg) (s : State) : Host.Outcome State Fault Refusal :=
  .next (s.setVThenFlag x (s.getV x + s.getV y) (carryFlag (s.getV x) (s.getV y)))

/-- SUB Vx, Vy, R168. -/
def execSubReg (x y : Reg) (s : State) : Host.Outcome State Fault Refusal :=
  .next (s.setVThenFlag x (s.getV x - s.getV y) (notBorrowFlag (s.getV x) (s.getV y)))

/-- SHR Vx, R169: V[x] shifted in place, y not used (D9). -/
def execShr (x : Reg) (s : State) : Host.Outcome State Fault Refusal :=
  .next (s.setVThenFlag x (s.getV x >>> 1) (shiftRightFlag (s.getV x)))

/-- SUBN Vx, Vy, R170: V[y] - V[x]. -/
def execSubn (x y : Reg) (s : State) : Host.Outcome State Fault Refusal :=
  .next (s.setVThenFlag x (s.getV y - s.getV x) (notBorrowFlag (s.getV y) (s.getV x)))

/-- SHL Vx, R171: V[x] shifted in place, y not used (D9). -/
def execShl (x : Reg) (s : State) : Host.Outcome State Fault Refusal :=
  .next (s.setVThenFlag x (s.getV x <<< 1) (shiftLeftFlag (s.getV x)))

/-- RND Vx, kk, R172: the STEP's random byte and kk (R13, D18). -/
def execRnd (x : Reg) (kk : Byte) (s : State) : Host.Outcome State Fault Refusal :=
  .next (s.setV x (s.rnd &&& kk))

end Sys2Proof.Machine
end

