-- ==== Sys2Proof/Machine/Cycle.lean ====
section
/-! DEFINITION. The instruction cycle: fetch, advance, decode, dispatch (spec 40_instruction_cycle.md R120 to R128), and STEP with
its random byte given by the host (R5, R13). -/

namespace Sys2Proof.Machine

/-- What a STEP has done when its instruction starts to execute (R120): PC is the post-fetch PC, and the report of the previous
STEP is gone (R252). -/
def State.beginStep (s : State) : State := { s.advancePc with report := .none }

/-- UNDEFINED, R125: reported with P and w, no other effect; PC is already P + 2. -/
def execUndefined (w : Word) (s : State) : Host.Outcome State Fault Refusal :=
  .next (s.raise .undefinedOpcode w)

/-- One instruction cycle in the order of R120. A STOP has no successor, so nothing of the cycle is kept. -/
def cycle (s : State) : Host.Outcome State Fault Refusal :=
  match s.fetch with
  | none => .fault .addrOutOfRange
  | some w =>
    match decode w with
    | .instr i => exec i s.beginStep
    | .undefined _ => execUndefined w s.beginStep

/-- STEP(rnd) with the byte the host supplies (R5, R120). -/
def stepWith (rnd : Byte) (s : State) : Host.Outcome State Fault Refusal :=
  cycle { s with rnd := rnd }

/-- STEP with the next byte of the free random source (R13, D18; log entry 1). -/
def stepFree (s : State) : Host.Outcome State Fault Refusal :=
  stepWith (Config.rndInput s.draws) { s with draws := s.draws + 1 }

/-- The state with the word `w` where the next STEP fetches, at PC; a PC from which no STEP can fetch becomes 0x200. -/
def State.withWordAtPc (s : State) (w : Word) : State :=
  if rangeOk s.pc.toNat 2 then s.placeWord s.pc.toNat w
  else (s.setPc 0x200).placeWord 0x200 w

end Sys2Proof.Machine
end

