-- ==== Sys2Proof/Machine/Step.lean ====
section
/-! DEFINITION. One step of the machine: the operation STEP (spec 40_instruction_cycle.md R120), its random byte a free value. -/

namespace Sys2Proof.Machine

/-- STEP, with `rnd` drawn from the free source (R13, R120; log entry 1). -/
def step (s : State) : Host.Outcome State Fault Refusal := stepFree s

/-- The state with the instruction whose bits are `w` (numbered as spec/opcode_table.json numbers them) stored where `step`
fetches next. -/
def State.withFetchWord (s : State) (nbits w : Nat) : State :=
  s.withWordAtPc (BitVec.ofNat 16 (w % 2 ^ nbits))

end Sys2Proof.Machine
end

