-- ==== Sys2Proof/Machine/HostOps.lean ====
section
/-! DEFINITION. The operations the host invokes between STEPs: LOAD, TICK, KEY_SET and FB_READ, and runs of operations
(spec 00_scope.md R5 to R7, 60_exceptions.md R271). -/

namespace Sys2Proof.Machine

/-- An 8-bit counter down by one, stopping at 0 (R245). -/
def countDown (t : Byte) : Byte := if t = 0 then 0 else t - 1

/-- TICK, R245: both timers, nothing else. -/
def State.tick (s : State) : State := { s with dt := countDown s.dt, st := countDown s.st }

/-- KEY_SET(id, pressed), R247. -/
def State.keySet (s : State) (id : KeyId) (pressed : Bool) : State := { s with keys := s.keys.set id pressed }

/-- FB_READ, R222: the 2048 pixels; the state is not changed. -/
def State.fbRead (s : State) : Framebuffer := s.fb

/-- The memory LOAD leaves (R291): the font at 0x000, the ROM at 0x200 and zeros elsewhere. -/
def loadedMemory (font : Font) (rom : List Byte) : Memory :=
  Memory.writeBytes (Memory.writeBytes [] 0 font.toList) Config.progBase rom

/-- LOAD(rom), R290 to R292: the state of R40, or the reason it fails. `font` is the parameter FONT (D17). -/
def State.load (font : Font) (rom : Option (List Byte)) : Except LoadError State :=
  match rom with
  | none => .error .missing
  | some bytes =>
    if bytes.length = 0 then .error .empty
    else if Config.romMax < bytes.length then .error .oversized
    else .ok { State.reset with mem := loadedMemory font bytes }

/-- The five operations of R5. -/
inductive Operation where
  /-- LOAD(rom) with the parameter FONT. -/
  | load (font : Font) (rom : Option (List Byte))
  /-- STEP(rnd). -/
  | step (rnd : Byte)
  | tick
  | keySet (id : KeyId) (pressed : Bool)
  | fbRead
  deriving DecidableEq, Repr

/-- One operation of the host (R5): LOAD discards the state it finds (R294); a failed LOAD leaves no state (R253). -/
def operate (op : Operation) (s : State) : Host.Outcome State Fault Refusal :=
  match op with
  | .load font rom =>
    match State.load font rom with
    | .ok t => .next t
    | .error e => .fault (.loadError e)
  | .step rnd => stepWith rnd s
  | .tick => .next s.tick
  | .keySet id pressed => .next (s.keySet id pressed)
  | .fbRead => .next s

/-- Operations in the order the host issues them (R261), stopping at the first fault or refusal. -/
def runOperations (ops : List Operation) (s : State) : Host.Outcome State Fault Refusal :=
  match ops with
  | [] => .next s
  | op :: ops =>
    match operate op s with
    | .next t => runOperations ops t
    | .fault r => .fault r
    | .refused r => .refused r

end Sys2Proof.Machine
end

