-- ==== Sys2Proof/WellFormed.lean ====
section
/-! DEFINITION. The check on an instruction that its operand types do not already make: that it is spelled canonically
(spec 30_encoding.md R99, R105). The widths of R93 are in the types, so no operand can be out of range.
An instruction that fails the check is an alias encoding: the machine runs it all the same (R99). -/

namespace Sys2Proof

/-- The canonical spelling (R99): the digits that the dispatch does not examine are the zeros of the source's pattern, as in
every program written with the mnemonics of R105. The `y` of SHR and SHL "may hold any value" (R105), so it is not checked. -/
def Instr.wellFormed : Instr → Bool
  | .cls x => x == 0
  | .ret x => x == 0
  | .sneReg _ _ n => n == 0
  | .jp _ | .call _ | .seImm _ _ | .sneImm _ _ | .seReg _ _ | .ldImm _ _ | .addImm _ _ | .ldReg _ _ | .orReg _ _
  | .andReg _ _ | .xorReg _ _ | .addReg _ _ | .subReg _ _ | .shr _ _ | .subn _ _ | .shl _ _ | .ldI _ | .jpV0 _ | .rnd _ _
  | .drw _ _ _ | .skp _ | .sknp _ | .ldVxDt _ | .ldVxK _ | .ldDtVx _ | .ldStVx _ | .addI _ | .ldF _ | .ldB _
  | .storeRegs _ | .loadRegs _ => true

/-- The canonical instruction that an alias encoding selects (R99). -/
def Instr.canonical : Instr → Instr
  | .cls _ => .cls 0
  | .ret _ => .ret 0
  | .sneReg x y _ => .sneReg x y 0
  | i@(.jp _) | i@(.call _) | i@(.seImm _ _) | i@(.sneImm _ _) | i@(.seReg _ _) | i@(.ldImm _ _) | i@(.addImm _ _)
  | i@(.ldReg _ _) | i@(.orReg _ _) | i@(.andReg _ _) | i@(.xorReg _ _) | i@(.addReg _ _) | i@(.subReg _ _) | i@(.shr _ _)
  | i@(.subn _ _) | i@(.shl _ _) | i@(.ldI _) | i@(.jpV0 _) | i@(.rnd _ _) | i@(.drw _ _ _) | i@(.skp _) | i@(.sknp _)
  | i@(.ldVxDt _) | i@(.ldVxK _) | i@(.ldDtVx _) | i@(.ldStVx _) | i@(.addI _) | i@(.ldF _) | i@(.ldB _) | i@(.storeRegs _)
  | i@(.loadRegs _) => i

end Sys2Proof
end

