-- ==== Sys2Proof/Safety.lean ====
section
/-! DEFINITION. The terms claims are stated in: the places of the state and what it means to leave them alone, the tables of the
spec that speak about every instruction (who writes what, where PC goes, what stops, what is reported), and the invariants. -/

namespace Sys2Proof

open Sys2Proof.Machine

/-! ### Places and frames -/

/-- Every piece of the state, one by one: registers, stack slots, pixels, keys and memory bytes singly. -/
inductive Place where
  | v (r : Reg)
  | i
  | pc
  | slot (k : Fin 12)
  | sp
  | dt
  | st
  | pixel (row : Fin 32) (col : Fin 64)
  | key (k : KeyId)
  | kwState
  | kwKey
  | mem (a : Nat)
  | report
  | rnd
  | draws
  deriving DecidableEq, Repr

/-- Two states hold the same at a place; memory is compared by the read of one byte. -/
def SameAt (p : Place) (s t : State) : Prop :=
  match p with
  | .v r => t.getV r = s.getV r
  | .i => t.i = s.i
  | .pc => t.pc = s.pc
  | .slot k => t.stack[k] = s.stack[k]
  | .sp => t.sp = s.sp
  | .dt => t.dt = s.dt
  | .st => t.st = s.st
  | .pixel row col => t.fb.pixel row col = s.fb.pixel row col
  | .key k => t.key k = s.key k
  | .kwState => t.kwState = s.kwState
  | .kwKey => t.kwKey = s.kwKey
  | .mem a => t.mem.read a = s.mem.read a
  | .report => t.report = s.report
  | .rnd => t.rnd = s.rnd
  | .draws => t.draws = s.draws

/-- The frame: from `s` to `t` every place is unchanged but those that `changed` names. -/
def KeepsAllBut (changed : Place → Prop) (s t : State) : Prop :=
  ∀ p, ¬ changed p → SameAt p s t

/-- The memory bytes of the `n` addresses from `a` upwards. -/
def IsByteOf (a n : Nat) (p : Place) : Prop := ∃ k, k < n ∧ p = .mem (a + k)

/-- A pixel of the framebuffer. -/
def IsPixel (p : Place) : Prop := ∃ row col, p = .pixel row col

/-- A function on the next state of an outcome; a fault or a refusal stays. -/
def mapNext (f : State → State) : Host.Outcome State Fault Refusal → Host.Outcome State Fault Refusal
  | .next s => .next (f s)
  | .fault r => .fault r
  | .refused r => .refused r

/-! ### The tables of the spec -/

/-- The opcode at PC as 20_memory.md R63 gives it: MEM[PC] * 256 + MEM[PC + 1]. -/
def opcodeAt (s : State) : Word :=
  BitVec.ofNat 16 ((s.mem.read s.pc.toNat).toNat * 256 + (s.mem.read (s.pc.toNat + 1)).toNat)

/-- The two bytes a fetch at PC needs exist: PC + 1 is at most 0xFFF (R121). -/
abbrev CanFetch (s : State) : Prop := s.pc.toNat ≤ 0xFFE

/-- The next STEP of `s` executes `i`: it can fetch, and the opcode at PC decodes to `i` (R120). -/
def Executes (s : State) (i : Instr) : Prop := CanFetch s ∧ decode (opcodeAt s) = .instr i

/-- The words of R97: the undefined opcodes, by op and sub-key. -/
def IsUndefinedWord (w : Word) : Prop :=
  (w.extractLsb' 12 4 = 0x0#4 ∧ w.extractLsb' 0 8 ∉ [0xE0#8, 0xEE#8]) ∨
  (w.extractLsb' 12 4 = 0x5#4 ∧ w.extractLsb' 0 4 ≠ 0x0#4) ∨
  (w.extractLsb' 12 4 = 0x8#4 ∧ w.extractLsb' 0 4 ∈ [0x8#4, 0x9#4, 0xA#4, 0xB#4, 0xC#4, 0xD#4, 0xF#4]) ∨
  (w.extractLsb' 12 4 = 0xE#4 ∧ w.extractLsb' 0 8 ∉ [0x9E#8, 0xA1#8]) ∨
  (w.extractLsb' 12 4 = 0xF#4 ∧
    w.extractLsb' 0 8 ∉ [0x07#8, 0x0A#8, 0x15#8, 0x18#8, 0x1E#8, 0x29#8, 0x33#8, 0x55#8, 0x65#8])

/-- The seven instructions that write VF as a flag (10_state.md R21). -/
def setsFlag : Instr → Bool
  | .addReg _ _ | .subReg _ _ | .subn _ _ | .shr _ _ | .shl _ _ | .drw _ _ _ | .addI _ => true
  | _ => false

/-- The summary table of 10_state.md section 1, column "written by", with R24 for PC: the places an instruction may write when
it executes in `s`. The report is written by the two instructions of R251. -/
def mayWrite (s : State) (i : Instr) : Place → Prop
  | .v r =>
    match i with
    | .ldImm x _ | .addImm x _ | .ldReg x _ | .orReg x _ | .andReg x _ | .xorReg x _ | .rnd x _ | .ldVxDt x | .ldVxK x => r = x
    | .addReg x _ | .subReg x _ | .subn x _ | .shr x _ | .shl x _ => r = x ∨ r = .vf
    | .drw _ _ _ | .addI _ => r = .vf
    | .loadRegs x => r ≤ x
    | _ => False
  | .i => (∃ addr, i = .ldI addr) ∨ (∃ x, i = .addI x) ∨ ∃ x, i = .ldF x
  | .pc =>
    match i with
    | .jp _ | .call _ | .ret _ | .jpV0 _ | .seImm _ _ | .sneImm _ _ | .seReg _ _ | .sneReg _ _ _ | .skp _ | .sknp _
    | .ldVxK _ => True
    | _ => False
  | .slot _ => ∃ addr, i = .call addr
  | .sp => (∃ addr, i = .call addr) ∨ ∃ x, i = .ret x
  | .dt => ∃ x, i = .ldDtVx x
  | .st => ∃ x, i = .ldStVx x
  | .pixel _ _ => (∃ x, i = .cls x) ∨ ∃ x y n, i = .drw x y n
  | .key _ => False
  | .kwState | .kwKey => ∃ x, i = .ldVxK x
  | .mem a =>
    (∃ x, i = .ldB x ∧ s.i.toNat ≤ a ∧ a ≤ s.i.toNat + 2) ∨
    ∃ x : Reg, i = .storeRegs x ∧ s.i.toNat ≤ a ∧ a ≤ s.i.toNat + x.val
  | .report => (∃ addr, i = .call addr) ∨ ∃ x, i = .ret x
  | .rnd | .draws => False

/-- The table of 10_state.md R24: PC after a STEP that executes `i`, from the state `s` before the STEP, P = its PC. -/
def pcAfter (s : State) : Instr → Word
  | .jp addr => addr.setWidth 16
  | .call addr => if s.sp = 11 then s.pc + 2 else addr.setWidth 16
  | .ret _ => if h : 0 ≤ s.sp ∧ s.sp.toNat < 12 then s.stack[s.sp.toNat] else s.pc + 2
  | .jpV0 addr => BitVec.ofNat 16 ((s.getV 0).toNat + addr.toNat)
  | .seImm x kk => if s.getV x = kk then s.pc + 4 else s.pc + 2
  | .sneImm x kk => if s.getV x ≠ kk then s.pc + 4 else s.pc + 2
  | .seReg x y => if s.getV x = s.getV y then s.pc + 4 else s.pc + 2
  | .sneReg x y _ => if s.getV x ≠ s.getV y then s.pc + 4 else s.pc + 2
  | .skp x => if ∃ k : KeyId, (s.getV x).toNat = k.val ∧ s.key k = true then s.pc + 4 else s.pc + 2
  | .sknp x => if ∃ k : KeyId, (s.getV x).toNat = k.val ∧ s.key k = false then s.pc + 4 else s.pc + 2
  | .ldVxK _ => if s.kwState = .keyDown ∧ s.key s.kwKey = false then s.pc + 2 else s.pc
  | _ => s.pc + 2

/-- The complete list of STOPs of 60_exceptions.md R256: the reason a STEP of `s` stops, if it does. -/
def stopReason (s : State) : Option Fault :=
  if 0xFFF ≤ s.pc.toNat then some .addrOutOfRange
  else
    match decode (opcodeAt s) with
    | .instr (.drw _ _ n) => if 0 < n.val ∧ 0xFFF < s.i.toNat + n.val - 1 then some .addrOutOfRange else none
    | .instr (.ldB _) => if 0xFFF < s.i.toNat + 2 then some .addrOutOfRange else none
    | .instr (.storeRegs x) => if 0xFFF < s.i.toNat + x.val then some .addrOutOfRange else none
    | .instr (.loadRegs x) => if 0xFFF < s.i.toNat + x.val then some .addrOutOfRange else none
    | .instr (.skp x) => if 15 < (s.getV x).toNat then some .keyIndexOutOfRange else none
    | .instr (.sknp x) => if 15 < (s.getV x).toNat then some .keyIndexOutOfRange else none
    | _ => none

/-- The table of run-time conditions of 60_exceptions.md R251: the condition a STEP of `s` raises, if it does. -/
def conditionOf (s : State) : Option Condition :=
  match decode (opcodeAt s) with
  | .undefined _ => some .undefinedOpcode
  | .instr (.call _) => if s.sp = 11 then some .stackOverflow else none
  | .instr (.ret _) => if s.sp = -1 then some .stackUnderflow else none
  | _ => none

/-- The report output of a STEP of `s` (R252): none, or the condition with the pre-step PC and the opcode word. -/
def reportOf (s : State) : Report :=
  match conditionOf s with
  | some c => .raised c s.pc (opcodeAt s)
  | none => .none

/-- The sprite bit that DRW Vx, Vy, n puts on the pixel (row, col), false where the sprite does not reach: start position
wrapped, most significant bit leftmost, pixels outside the grid not written (44_display.md R213 to R216). -/
def spriteBit (s : State) (x y : Reg) (n : RowCount) (row col : Nat) : Bool :=
  let x0 := (s.getV x).toNat % 64
  let y0 := (s.getV y).toNat % 32
  decide (y0 ≤ row ∧ row < y0 + n.val ∧ x0 ≤ col ∧ col < x0 + 8) &&
    (s.mem.read (s.i.toNat + (row - y0))).getLsbD (7 - (col - x0))

/-! ### Invariants -/

/-- The memory keeps its canonical form. -/
def MemCanonical (s : State) : Prop := s.mem.wf

/-- The bounds of 10_state.md R24: PC is at most 0x10FE and every stack slot at most 0x1000, so no PC arithmetic of a STEP
overflows 16 bits. -/
def PcBounded (s : State) : Prop := s.pc.toNat ≤ 0x10FE ∧ ∀ k : Fin 12, s.stack[k].toNat ≤ 0x1000

/-- The invariant of 10_state.md R30: in KeyDown the opcode at PC is a key wait. -/
def KeyWaitAtPc (s : State) : Prop := s.kwState = .keyDown → ∃ x, Executes s (.ldVxK x)

/-- The invariants together. -/
def CoreInv (s : State) : Prop := MemCanonical s ∧ PcBounded s ∧ KeyWaitAtPc s

/-! ### Runs -/

/-- A quiescent state (70_reset_and_hazards.md R305): STEP maps it to itself for every rnd and reports nothing. The input rnd
and the report output are not the core's state (R33, R252), so they are left aside. -/
def Quiescent (s : State) : Prop :=
  ∀ rnd, ∃ t, stepWith rnd s = .next t ∧ t.report.code = 0 ∧ KeepsAllBut (fun p => p = .rnd ∨ p = .report) s t

/-- An operation that neither reloads the core nor touches the key `k`. -/
def LeavesKey (k : KeyId) : Operation → Prop
  | .load _ _ => False
  | .step _ | .tick | .fbRead => True
  | .keySet id _ => id ≠ k

/-- Two states that differ in stack slots above SP only (10_state.md R25: a stale slot is never read). -/
def SameButStaleSlots (s t : State) : Prop :=
  t = { s with stack := t.stack } ∧ ∀ k : Fin 12, k.val < s.depth.val → t.stack[k] = s.stack[k]

end Sys2Proof
end

