-- ==== Sys2Proof/Certificates/Slice0/Obligations.lean ====
section
/-! DEFINITION. The statements for the provers. A statement about `exec` speaks of the state in which an instruction starts to
execute: PC is already the post-fetch PC, P + 2 (40_instruction_cycle.md R120). `StepRunsTheDecodedInstruction` carries them to
a STEP. In every frame, `KeepsAllBut` names all that may change; memory is compared byte by byte. -/

open Sys2Proof Sys2Proof.Machine

/-! ### Reset and LOAD -/

/-- 10_state.md section 13: what reset leaves. The zeros of V, I, DT, ST, FB, KEY, KW and the stack slots are the spec's
decision D16 (log entry 2) and the font bytes its default FONT (log entry 3). -/
def Obligations.ResetHoldsTheTableValues : Prop :=
  State.reset.pc = 0x200 ∧ State.reset.sp = -1 ∧ (∀ r, State.reset.getV r = 0) ∧ State.reset.i = 0 ∧
  State.reset.dt = 0 ∧ State.reset.st = 0 ∧ (∀ row col, State.reset.fb.pixel row col = false) ∧
  (∀ k, State.reset.key k = false) ∧ State.reset.kwState = .waiting ∧ State.reset.kwKey = 0 ∧
  (∀ k : Fin 12, State.reset.stack[k] = 0) ∧
  ∀ a, State.reset.mem.read a = if h : a < 80 then Config.font[a] else 0

/-- R291: memory after a successful LOAD, byte for byte, for every font. -/
def Obligations.LoadInstallsFontAndRom : Prop :=
  ∀ (font : Font) (rom : List Byte), 0 < rom.length → rom.length ≤ 3584 →
    ∃ s, State.load font (some rom) = .ok s ∧
      (∀ (a : Nat) (h : a < 80), s.mem.read a = font[a]) ∧
      (∀ a, 0x050 ≤ a → a ≤ 0x1FF → s.mem.read a = 0) ∧
      (∀ (i : Nat) (h : i < rom.length), s.mem.read (0x200 + i) = rom[i]) ∧
      ∀ a, 0x200 + rom.length ≤ a → a ≤ 0xFFF → s.mem.read a = 0

/-- 70_reset_and_hazards.md R294 (the spec's decision D30; log entry 12) and R40: LOAD leaves everything but memory as reset has
it, and the state it finds does not matter. -/
def Obligations.LoadDiscardsThePriorState : Prop :=
  ∀ (font : Font) (rom : Option (List Byte)) (s u t : State), operate (.load font rom) s = .next t →
    KeepsAllBut (fun p => ∃ a, p = .mem a) State.reset t ∧ operate (.load font rom) u = .next t

/-- R292: when LOAD fails with LoadError, and that it then leaves no state. -/
def Obligations.LoadFailsExactlyOnABadRom : Prop :=
  ∀ (font : Font) (rom : Option (List Byte)) (s : State),
    (∃ e, operate (.load font rom) s = .fault (.loadError e)) ↔
      (rom = none ∨ ∃ bytes, rom = some bytes ∧ (bytes.length = 0 ∨ 3584 < bytes.length))

/-! ### Encoding -/

/-- 30_encoding.md R94, R96: the word of every instruction, alias spellings included, decodes to that instruction, with every
operand at every value; so do its two bytes, high byte first, and the bytes after them are left over. -/
def Obligations.DecodeInvertsEncode : Prop :=
  ∀ i : Instr, decode (encode i) = .instr i ∧
    ∀ rest, decodeBytes (highByte (encode i) :: lowByte (encode i) :: rest) = .ok (i, rest)

/-- 30_encoding.md sections 3 and 4: a defined word is the word of the instruction it decodes to. That no two words decode alike,
alias words included, is the model's choice: `Instr` keeps the unexamined digits (log entry 7), and with them every digit of the
word (log entry 22). By the spec's R99 alias words select one and the same instruction. -/
def Obligations.EncodeInvertsDecode : Prop :=
  ∀ (w : Word) (i : Instr), decode w = .instr i → encode i = w

/-- 30_encoding.md R96: a word decodes to the instruction of a row exactly when the row's mask and match select it. -/
def Obligations.OpcodeTableRowsSelectTheirInstruction : Prop :=
  ∀ (w : Word) (r : Nat), 1 ≤ r → r ≤ 34 → (rowSelects r w = true ↔ ∃ i, decode w = .instr i ∧ tableRow i = r)

/-- 30_encoding.md R97: the undefined opcodes are exactly the words listed there. It rests on the spec's decisions D6 to D8 and
D27 about the sub-keys (log entries 7 and 8). -/
def Obligations.UndefinedWordsAreThoseListed : Prop :=
  ∀ w : Word, (∃ row, decode w = .undefined row) ↔ IsUndefinedWord w

/-- 95_test_vectors.md N1 to N22: some words and what they decode to. -/
def Obligations.SpecExampleWordsDecode : Prop :=
  decode 0x00E0 = .instr (.cls 0) ∧ decode 0x0FEE = .instr (.ret 0xF) ∧ decode 0x1ABC = .instr (.jp 0xABC) ∧
  decode 0x332A = .instr (.seImm 3 0x2A) ∧ decode 0x812E = .instr (.shl 1 2) ∧ decode 0x912F = .instr (.sneReg 1 2 0xF) ∧
  decode 0xD015 = .instr (.drw 0 1 5) ∧ decode 0xE1A1 = .instr (.sknp 1) ∧ decode 0xF165 = .instr (.loadRegs 1) ∧
  decode 0x0000 = .undefined .op0 ∧ decode 0x5121 = .undefined .op5 ∧ decode 0x812F = .undefined .op8 ∧
  decode 0xE19F = .undefined .opE ∧ decode 0xFFFF = .undefined .opF

/-- 30_encoding.md R99 (the spec's decisions D6 and D7; log entry 7): an alias executes as its canonical instruction. Only the
opcode word that a report carries tells them apart. -/
def Obligations.AliasesExecuteAsTheirCanonicalInstruction : Prop :=
  ∀ i : Instr, i.canonical.wellFormed = true ∧ (i.wellFormed = true ↔ i.canonical = i) ∧
    ∀ s : State,
      (∀ t, exec i s = .next t →
        ∃ u, exec i.canonical s = .next u ∧ KeepsAllBut (· = .report) t u ∧ u.report.code = t.report.code) ∧
      ∀ f, exec i s = .fault f ↔ exec i.canonical s = .fault f

/-! ### The instruction cycle -/

/-- 40_instruction_cycle.md R120: a STEP fetches the two bytes at PC, advances PC by 2, presents no report yet, and executes the
decoded instruction. `rnd` is the byte the host gives, or for `step` the next byte of the free source (log entry 1). -/
def Obligations.StepRunsTheDecodedInstruction : Prop :=
  ∀ (s : State) (i : Instr), Executes s i →
    (∀ r, stepWith r s = exec i { s with pc := s.pc + 2, report := .none, rnd := r }) ∧
    step s = exec i { s with pc := s.pc + 2, report := .none, rnd := Config.rndInput s.draws, draws := s.draws + 1 }

/-- 40_instruction_cycle.md R121 (the spec's decision D4; log entry 6): a fetch that needs a byte above 0xFFF stops. -/
def Obligations.FetchAboveMemoryStops : Prop :=
  ∀ s : State, 0xFFF ≤ s.pc.toNat → step s = .fault .addrOutOfRange ∧ ∀ r, stepWith r s = .fault .addrOutOfRange

/-- 40_instruction_cycle.md R125: an undefined opcode is reported and PC has moved past it; nothing else changes but the STEP's own
input. That the report carries the pre-step PC and the word is the spec's decision D20 (60_exceptions.md R252; log entry 4). -/
def Obligations.UndefinedOpcodeIsAReportedNoOp : Prop :=
  ∀ s : State, CanFetch s → IsUndefinedWord (opcodeAt s) →
    ∃ t, step s = .next t ∧ t.report = .raised .undefinedOpcode s.pc (opcodeAt s) ∧ t.pc = s.pc + 2 ∧
      KeepsAllBut (fun p => p = .pc ∨ p = .report ∨ p = .rnd ∨ p = .draws) s t

/-- 60_exceptions.md R256 (the spec's decisions D4, D5, D15; log entry 6): a STEP stops exactly in the listed cases. -/
def Obligations.StepStopsExactlyAsListed : Prop :=
  ∀ (s : State) (f : Fault), step s = .fault f ↔ stopReason s = some f

/-- 40_instruction_cycle.md R128: from PC <= 0xFFE a STEP completes or is a STOP; the key wait always completes; nothing is ever refused. -/
def Obligations.StepCompletesOrStops : Prop :=
  (∀ s : State, CanFetch s →
    (∃ t, step s = .next t) ∨ step s = .fault .addrOutOfRange ∨ step s = .fault .keyIndexOutOfRange) ∧
  (∀ (s : State) (x : Reg), Executes s (.ldVxK x) → ∃ t, step s = .next t) ∧
  ∀ (s : State) (r : Refusal), step s ≠ .refused r

/-- 10_state.md R24 and 40_instruction_cycle.md R127: where every STEP leaves PC. It rests on D2, D21 and D22 for Bnnn, an empty
RET and the key wait (log entries 9, 10 and 11). -/
def Obligations.PcAfterEveryStep : Prop :=
  ∀ s t : State, step s = .next t →
    t.pc = match decode (opcodeAt s) with
      | .instr i => pcAfter s i
      | .undefined _ => s.pc + 2

/-- 60_exceptions.md R251, R252 (the spec's decision D20; log entry 4): what every STEP reports. -/
def Obligations.ReportAfterEveryStep : Prop :=
  ∀ s t : State, step s = .next t → t.report = reportOf s

/-- R262: a STEP that reports a condition changes nothing but PC, by 2, and the STEP's own input and output. -/
def Obligations.ReportedStepsOnlyAdvancePc : Prop :=
  ∀ s t : State, step s = .next t → t.report.code ≠ 0 →
    t.pc = s.pc + 2 ∧ KeepsAllBut (fun p => p = .pc ∨ p = .report ∨ p = .rnd ∨ p = .draws) s t

/-- 10_state.md section 1, column "written by", and 20_memory.md R61: an instruction writes only the places the table gives it. -/
def Obligations.OnlyTheListedWritersWrite : Prop :=
  ∀ (i : Instr) (s t : State), exec i s = .next t → KeepsAllBut (mayWrite s i) s t

/-! ### Invariants -/

/-- The memory's canonical form is kept by every STEP. -/
def Obligations.StepKeepsMemoryCanonical : Prop :=
  ∀ s t : State, MemCanonical s → step s = .next t → MemCanonical t

/-- 10_state.md R24: the bounds on PC and the stacked return addresses are kept by every STEP. -/
def Obligations.StepKeepsPcBounded : Prop :=
  ∀ s t : State, PcBounded s → step s = .next t → PcBounded t

/-- 10_state.md R30: that KeyDown is only ever seen with a key wait at PC is kept by every STEP. -/
def Obligations.StepKeepsKeyWaitAtPc : Prop :=
  ∀ s t : State, KeyWaitAtPc s → step s = .next t → KeyWaitAtPc t

/-- The reset state meets the three invariants. -/
def Obligations.ResetMeetsTheInvariants : Prop := CoreInv State.reset

/-- 00_scope.md R5, R6: whatever operations the host invokes, in whatever order, the invariants are kept. -/
def Obligations.HostSchedulesKeepTheInvariants : Prop :=
  ∀ (ops : List Operation) (s t : State), CoreInv s → runOperations ops s = .next t → CoreInv t

/-! ### Control transfer -/

/-- 41_control_flow.md RET: the top return address goes to PC, or an empty stack is reported and PC keeps its post-fetch value
(the spec's decision D21; log entry 10). The report carries the pre-step PC and the word (the spec's decision D20; log entry 4),
which `exec` rebuilds as PC - 2 and `encode` (log entry 22). -/
def Obligations.RetPopsOrReportsUnderflow : Prop :=
  ∀ (s : State) (x : Nibble), ∃ t, exec (.ret x) s = .next t ∧
    (∀ k : Fin 12, s.sp = (k.val : Int) →
      t.pc = s.stack[k] ∧ t.sp = s.sp - 1 ∧ KeepsAllBut (fun p => p = .pc ∨ p = .sp) s t) ∧
    (s.sp = -1 →
      t.report = .raised .stackUnderflow (s.pc - 2) (encode (.ret x)) ∧ KeepsAllBut (· = .report) s t)

/-- R143: JP addr. -/
def Obligations.JpSetsPcToAddr : Prop :=
  ∀ (s : State) (addr : Addr12), ∃ t, exec (.jp addr) s = .next t ∧ t.pc.toNat = addr.toNat ∧ KeepsAllBut (· = .pc) s t

/-- 41_control_flow.md R145: CALL addr pushes the post-fetch PC and jumps, or on a full stack is reported and discarded (by
90_conflicts.md C3; log entry 10). The report carries the pre-step PC and the word (the spec's decision D20; log entry 4), which
`exec` rebuilds as PC - 2 and `encode` (log entry 22). -/
def Obligations.CallPushesOrReportsOverflow : Prop :=
  ∀ (s : State) (addr : Addr12), ∃ t, exec (.call addr) s = .next t ∧
    (∀ k : Fin 12, s.sp + 1 = (k.val : Int) →
      t.pc.toNat = addr.toNat ∧ t.sp = s.sp + 1 ∧ t.stack[k] = s.pc ∧
      KeepsAllBut (fun p => p = .pc ∨ p = .sp ∨ p = .slot k) s t) ∧
    (s.sp = 11 →
      t.report = .raised .stackOverflow (s.pc - 2) (encode (.call addr)) ∧ KeepsAllBut (· = .report) s t)

/-- R147 and R148: SE Vx, kk and SNE Vx, kk pass over the next instruction when V[x] equals kk, or differs from it. -/
def Obligations.CompareWithByteSkips : Prop :=
  ∀ (s : State) (x : Reg) (kk : Byte),
    (∃ t, exec (.seImm x kk) s = .next t ∧ t.pc = (if s.getV x = kk then s.pc + 2 else s.pc) ∧
      KeepsAllBut (· = .pc) s t) ∧
    ∃ t, exec (.sneImm x kk) s = .next t ∧ t.pc = (if s.getV x = kk then s.pc else s.pc + 2) ∧ KeepsAllBut (· = .pc) s t

/-- R149 and R150: SE Vx, Vy and SNE Vx, Vy pass over the next instruction when V[x] equals V[y], or differs from it; any n of
the second is accepted. -/
def Obligations.CompareRegistersSkips : Prop :=
  ∀ (s : State) (x y : Reg) (n : Nibble),
    (∃ t, exec (.seReg x y) s = .next t ∧ t.pc = (if s.getV x = s.getV y then s.pc + 2 else s.pc) ∧
      KeepsAllBut (· = .pc) s t) ∧
    ∃ t, exec (.sneReg x y n) s = .next t ∧ t.pc = (if s.getV x = s.getV y then s.pc else s.pc + 2) ∧
      KeepsAllBut (· = .pc) s t

/-- 41_control_flow.md JP V0, addr (with the 16-bit PC of the spec's decision D2; log entry 9): the sum is exact. -/
def Obligations.JpV0AddsTheBase : Prop :=
  ∀ (s : State) (addr : Addr12), ∃ t, exec (.jpV0 addr) s = .next t ∧
    t.pc.toNat = (s.getV 0).toNat + addr.toNat ∧ KeepsAllBut (· = .pc) s t

/-- 41_control_flow.md R145 and R141: a CALL that is not discarded, then anything that leaves the stack as the CALL left it, then
a RET, resumes after the CALL with the stack as deep as before. -/
def Obligations.RetResumesAfterTheCall : Prop :=
  ∀ (s : State) (addr : Addr12), s.sp < 11 →
    ∃ t, exec (.call addr) s = .next t ∧
      ∀ (u : State) (x : Nibble), u.sp = t.sp → u.stack = t.stack →
        ∃ r, exec (.ret x) u = .next r ∧ r.pc = s.pc ∧ r.sp = s.sp

/-! ### Load and arithmetic -/

/-- R161, R163 and R240: LD Vx, kk; LD Vx, Vy; LD Vx, DT write V[x] alone. -/
def Obligations.LoadsWriteVxAlone : Prop :=
  ∀ (s : State) (x y : Reg) (kk : Byte),
    (∃ t, exec (.ldImm x kk) s = .next t ∧ t.getV x = kk ∧ KeepsAllBut (· = .v x) s t) ∧
    (∃ t, exec (.ldReg x y) s = .next t ∧ t.getV x = s.getV y ∧ KeepsAllBut (· = .v x) s t) ∧
    ∃ t, exec (.ldVxDt x) s = .next t ∧ t.getV x = s.dt ∧ KeepsAllBut (· = .v x) s t

/-- R162: ADD Vx, kk adds modulo 256 and writes no flag. -/
def Obligations.AddByteWrapsWithoutFlag : Prop :=
  ∀ (s : State) (x : Reg) (kk : Byte), ∃ t, exec (.addImm x kk) s = .next t ∧
    (t.getV x).toNat = ((s.getV x).toNat + kk.toNat) % 256 ∧ KeepsAllBut (· = .v x) s t

/-- 42_load_alu.md OR, AND, XOR: bit by bit; VF is left alone (the spec's decision D10; log entry 13). -/
def Obligations.BitwiseOpsWriteVxAlone : Prop :=
  ∀ (s : State) (x y : Reg),
    (∃ t, exec (.orReg x y) s = .next t ∧
      (∀ j, (t.getV x).getLsbD j = ((s.getV x).getLsbD j || (s.getV y).getLsbD j)) ∧ KeepsAllBut (· = .v x) s t) ∧
    (∃ t, exec (.andReg x y) s = .next t ∧
      (∀ j, (t.getV x).getLsbD j = ((s.getV x).getLsbD j && (s.getV y).getLsbD j)) ∧ KeepsAllBut (· = .v x) s t) ∧
    ∃ t, exec (.xorReg x y) s = .next t ∧
      (∀ j, (t.getV x).getLsbD j = ((s.getV x).getLsbD j ^^ (s.getV y).getLsbD j)) ∧ KeepsAllBut (· = .v x) s t

/-- R167: ADD Vx, Vy; VF is the carry, always written, and with x = 0xF the flag stays. -/
def Obligations.AddRegistersSetsCarry : Prop :=
  ∀ (s : State) (x y : Reg), ∃ t, exec (.addReg x y) s = .next t ∧
    (x ≠ .vf → (t.getV x).toNat = ((s.getV x).toNat + (s.getV y).toNat) % 256) ∧
    t.getV .vf = (if (s.getV x).toNat + (s.getV y).toNat > 255 then 1 else 0) ∧
    KeepsAllBut (fun p => p = .v x ∨ p = .v .vf) s t

/-- R168 and R170: SUB and SUBN; VF is NOT borrow, always written, and with x = 0xF the flag stays. -/
def Obligations.SubtractionsSetNotBorrow : Prop :=
  ∀ (s : State) (x y : Reg),
    (∃ t, exec (.subReg x y) s = .next t ∧
      (x ≠ .vf → ((t.getV x).toNat : Int) = ((s.getV x).toNat - (s.getV y).toNat : Int) % 256) ∧
      t.getV .vf = (if (s.getV x).toNat ≥ (s.getV y).toNat then 1 else 0) ∧
      KeepsAllBut (fun p => p = .v x ∨ p = .v .vf) s t) ∧
    ∃ t, exec (.subn x y) s = .next t ∧
      (x ≠ .vf → ((t.getV x).toNat : Int) = ((s.getV y).toNat - (s.getV x).toNat : Int) % 256) ∧
      t.getV .vf = (if (s.getV y).toNat ≥ (s.getV x).toNat then 1 else 0) ∧
      KeepsAllBut (fun p => p = .v x ∨ p = .v .vf) s t

/-- 42_load_alu.md SHR Vx and SHL Vx: V[x] is shifted in place, whatever y (the spec's decision D9; log entry 14); VF is the bit
shifted out. -/
def Obligations.ShiftsMoveVxByOne : Prop :=
  ∀ (s : State) (x : Reg) (y : Nibble),
    (∃ t, exec (.shr x y) s = .next t ∧ (x ≠ .vf → (t.getV x).toNat = (s.getV x).toNat / 2) ∧
      t.getV .vf = (if (s.getV x).toNat % 2 = 1 then 1 else 0) ∧ KeepsAllBut (fun p => p = .v x ∨ p = .v .vf) s t) ∧
    ∃ t, exec (.shl x y) s = .next t ∧ (x ≠ .vf → (t.getV x).toNat = (s.getV x).toNat * 2 % 256) ∧
      t.getV .vf = (if (s.getV x).toNat ≥ 128 then 1 else 0) ∧ KeepsAllBut (fun p => p = .v x ∨ p = .v .vf) s t

/-- 42_load_alu.md RND Vx, kk (the random byte is the free input of the spec's decision D18; log entry 1): the draw masked by kk,
so no bit outside kk and at most kk, whatever the draw. -/
def Obligations.RndMasksTheDraw : Prop :=
  (∀ (s : State) (x : Reg) (kk : Byte), ∃ t, exec (.rnd x kk) s = .next t ∧
    (∀ j, (t.getV x).getLsbD j = (s.rnd.getLsbD j && kk.getLsbD j)) ∧ (t.getV x).toNat ≤ kk.toNat ∧
    KeepsAllBut (· = .v x) s t) ∧
  ∀ (s : State) (x : Reg) (kk : Byte), Executes s (.rnd x kk) →
    ∃ t, step s = .next t ∧ t.getV x = Config.rndInput s.draws &&& kk

/-- 10_state.md R21: the seven flag-setting instructions always leave VF at 0 or 1. -/
def Obligations.FlagSettersLeaveZeroOrOne : Prop :=
  ∀ (i : Instr) (s t : State), setsFlag i = true → exec i s = .next t → t.getV .vf = 0 ∨ t.getV .vf = 1

/-! ### Index register and memory -/

/-- R191: LD I, addr. -/
def Obligations.LdISetsIndex : Prop :=
  ∀ (s : State) (addr : Addr12), ∃ t, exec (.ldI addr) s = .next t ∧ t.i.toNat = addr.toNat ∧ KeepsAllBut (· = .i) s t

/-- R194: LD F, Vx points I at the glyph of V[x]'s low nibble; after LOAD that glyph's five bytes stand there, for every font. -/
def Obligations.LdFPointsAtTheGlyph : Prop :=
  (∀ (s : State) (x : Reg), ∃ t, exec (.ldF x) s = .next t ∧ t.i.toNat = (s.getV x).toNat % 16 * 5 ∧
    KeepsAllBut (· = .i) s t) ∧
  ∀ (font : Font) (rom : List Byte) (s : State), State.load font (some rom) = .ok s →
    ∀ (d : Fin 16) (j : Fin 5), s.mem.read (d.val * 5 + j.val) = font[d.val * 5 + j.val]

/-- 43_index_memory.md ADD I, Vx: the sum modulo 65536 to I, and whether the exact sum exceeds 0xFFF to VF (the spec's decision
D3; log entry 15). -/
def Obligations.AddIWrapsAndFlagsBeyondMemory : Prop :=
  ∀ (s : State) (x : Reg), ∃ t, exec (.addI x) s = .next t ∧
    t.i.toNat = (s.i.toNat + (s.getV x).toNat) % 65536 ∧
    t.getV .vf = (if s.i.toNat + (s.getV x).toNat > 0xFFF then 1 else 0) ∧
    KeepsAllBut (fun p => p = .i ∨ p = .v .vf) s t

/-- 43_index_memory.md LD B, Vx: the three digits at I, I + 1, I + 2, and nothing else; above 0xFFF it stops (the spec's
decisions D4 and D15; log entry 6). -/
def Obligations.LdBStoresThreeDigits : Prop :=
  (∀ (s : State) (x : Reg), s.i.toNat + 2 ≤ 0xFFF →
    ∃ t, exec (.ldB x) s = .next t ∧
      (t.mem.read s.i.toNat).toNat = (s.getV x).toNat / 100 ∧
      (t.mem.read (s.i.toNat + 1)).toNat = (s.getV x).toNat / 10 % 10 ∧
      (t.mem.read (s.i.toNat + 2)).toNat = (s.getV x).toNat % 10 ∧
      KeepsAllBut (IsByteOf s.i.toNat 3) s t) ∧
  ∀ (s : State) (x : Reg), 0xFFF < s.i.toNat + 2 → exec (.ldB x) s = .fault .addrOutOfRange

/-- 43_index_memory.md LD [I], Vx: V[0..x] to MEM[I..I+x], I unchanged (the spec's decision D11; log entry 16); above 0xFFF it
stops (D4, D15; log entry 6). -/
def Obligations.StoreRegistersCopiesToMemory : Prop :=
  (∀ (s : State) (x : Reg), s.i.toNat + x.val ≤ 0xFFF →
    ∃ t, exec (.storeRegs x) s = .next t ∧
      (∀ k : Reg, k ≤ x → t.mem.read (s.i.toNat + k.val) = s.getV k) ∧
      KeepsAllBut (IsByteOf s.i.toNat (x.val + 1)) s t) ∧
  ∀ (s : State) (x : Reg), 0xFFF < s.i.toNat + x.val → exec (.storeRegs x) s = .fault .addrOutOfRange

/-- 43_index_memory.md LD Vx, [I]: MEM[I..I+x] to V[0..x], I and memory unchanged (the spec's decision D11; log entry 16); above
0xFFF it stops (D4, D15; log entry 6). -/
def Obligations.LoadRegistersCopiesFromMemory : Prop :=
  (∀ (s : State) (x : Reg), s.i.toNat + x.val ≤ 0xFFF →
    ∃ t, exec (.loadRegs x) s = .next t ∧
      (∀ k : Reg, k ≤ x → t.getV k = s.mem.read (s.i.toNat + k.val)) ∧
      KeepsAllBut (fun p => ∃ k : Reg, k ≤ x ∧ p = .v k) s t) ∧
  ∀ (s : State) (x : Reg), 0xFFF < s.i.toNat + x.val → exec (.loadRegs x) s = .fault .addrOutOfRange

/-- 20_memory.md R83 (the spec's decision D25; log entry 17): the next fetch sees what LD [I], Vx stored, whole when it stored
both bytes at PC. -/
def Obligations.StoredBytesAreFetched : Prop :=
  ∀ (s t : State) (x : Reg) (j k : Reg), exec (.storeRegs x) s = .next t → k.val = j.val + 1 → k ≤ x →
    t.pc.toNat = s.i.toNat + j.val →
    CanFetch t ∧ opcodeAt t = BitVec.ofNat 16 ((s.getV j).toNat * 256 + (s.getV k).toNat)

/-! ### Display -/

/-- 44_display.md R211: CLS clears every pixel and touches nothing else. -/
def Obligations.ClsClearsTheFramebuffer : Prop :=
  ∀ (s : State) (x : Nibble), ∃ t, exec (.cls x) s = .next t ∧
    (∀ (row : Fin 32) (col : Fin 64), t.fb.pixel row col = false) ∧ KeepsAllBut IsPixel s t

/-- 44_display.md R213 to R217 (the spec's decisions D12 to D15; log entry 18): every pixel is exclusive-ored with its sprite
bit, VF says whether a set pixel was turned off, and nothing else changes; when a sprite row lies above 0xFFF it stops. -/
def Obligations.DrwBlitsTheSprite : Prop :=
  (∀ (s : State) (x y : Reg) (n : RowCount), n.val = 0 ∨ s.i.toNat + n.val - 1 ≤ 0xFFF →
    ∃ t, exec (.drw x y n) s = .next t ∧
      (∀ (row : Fin 32) (col : Fin 64),
        t.fb.pixel row col = (s.fb.pixel row col ^^ spriteBit s x y n row col)) ∧
      (t.getV .vf = 1 ↔ ∃ (row : Fin 32) (col : Fin 64), s.fb.pixel row col = true ∧ t.fb.pixel row col = false) ∧
      (t.getV .vf = 0 ∨ t.getV .vf = 1) ∧
      KeepsAllBut (fun p => IsPixel p ∨ p = .v .vf) s t) ∧
  ∀ (s : State) (x y : Reg) (n : RowCount), 0 < n.val → 0xFFF < s.i.toNat + n.val - 1 →
    exec (.drw x y n) s = .fault .addrOutOfRange

/-- 44_display.md R218: a second draw of the same sprite bytes at the same start position, with the framebuffer as the first draw
left it, restores the framebuffer, and its VF is 1 exactly when the first draw turned a pixel on. -/
def Obligations.DrawingTwiceRestoresTheFramebuffer : Prop :=
  ∀ (s t u : State) (x y x' y' : Reg) (n : RowCount), exec (.drw x y n) s = .next t →
    u.fb = t.fb → (u.getV x').toNat % 64 = (s.getV x).toNat % 64 → (u.getV y').toNat % 32 = (s.getV y).toNat % 32 →
    u.i.toNat + n.val ≤ 4096 →
    (∀ r, r < n.val → u.mem.read (u.i.toNat + r) = s.mem.read (s.i.toNat + r)) →
    ∃ w, exec (.drw x' y' n) u = .next w ∧ w.fb = s.fb ∧
      (w.getV .vf = 1 ↔ ∃ (row : Fin 32) (col : Fin 64), s.fb.pixel row col = false ∧ t.fb.pixel row col = true)

/-! ### Keypad and timers -/

/-- 45_keypad_timers.md SKP and SKNP: a level test of the key V[x] names; above 15 they stop (the spec's decision D5; log entry
6). -/
def Obligations.KeySkipsTestTheKeyLevel : Prop :=
  (∀ (s : State) (x : Reg) (k : KeyId), (s.getV x).toNat = k.val →
    (∃ t, exec (.skp x) s = .next t ∧ t.pc = (if s.key k then s.pc + 2 else s.pc) ∧ KeepsAllBut (· = .pc) s t) ∧
    ∃ t, exec (.sknp x) s = .next t ∧ t.pc = (if s.key k then s.pc else s.pc + 2) ∧ KeepsAllBut (· = .pc) s t) ∧
  ∀ (s : State) (x : Reg), 15 < (s.getV x).toNat →
    exec (.skp x) s = .fault .keyIndexOutOfRange ∧ exec (.sknp x) s = .fault .keyIndexOutOfRange

/-- 45_keypad_timers.md R236 (with the spec's decision D22; log entry 11): one STEP of the key wait, in its four cases. It always
completes. -/
def Obligations.KeyWaitLatchesHoldsDelivers : Prop :=
  ∀ (s : State) (x : Reg), ∃ t, exec (.ldVxK x) s = .next t ∧
    (s.kwState = .waiting → (∀ k, s.key k = false) → t.pc = s.pc - 2 ∧ KeepsAllBut (· = .pc) s t) ∧
    (∀ k, s.kwState = .waiting → s.key k = true → (∀ j, j < k → s.key j = false) →
      t.kwState = .keyDown ∧ t.kwKey = k ∧ t.pc = s.pc - 2 ∧
      KeepsAllBut (fun p => p = .pc ∨ p = .kwState ∨ p = .kwKey) s t) ∧
    (s.kwState = .keyDown → s.key s.kwKey = true → t.pc = s.pc - 2 ∧ KeepsAllBut (· = .pc) s t) ∧
    (s.kwState = .keyDown → s.key s.kwKey = false →
      (t.getV x).toNat = s.kwKey.val ∧ t.kwState = .waiting ∧ KeepsAllBut (fun p => p = .v x ∨ p = .kwState) s t)

/-- 45_keypad_timers.md R237: while the remembered key is held, whatever the host does other than reload or touch that key, the
wait goes on and no register changes; once the key is released the next STEP delivers its id and PC moves on. -/
def Obligations.HeldKeyStallsUntilReleased : Prop :=
  ∀ (s : State) (x : Reg) (ops : List Operation), Executes s (.ldVxK x) → s.kwState = .keyDown → s.key s.kwKey = true →
    (∀ op ∈ ops, LeavesKey s.kwKey op) →
    ∃ t, runOperations ops s = .next t ∧
      KeepsAllBut (fun p => p = .dt ∨ p = .st ∨ p = .report ∨ p = .rnd ∨ ∃ k, k ≠ s.kwKey ∧ p = .key k) s t ∧
      ∀ r, ∃ u, stepWith r (t.keySet s.kwKey false) = .next u ∧ (u.getV x).toNat = s.kwKey.val ∧ u.pc = s.pc + 2 ∧
        u.kwState = .waiting

/-- R241, LD DT, Vx; and what 45_keypad_timers.md R242 says LD ST, Vx writes. -/
def Obligations.TimerLoadsWriteTheTimerAlone : Prop :=
  ∀ (s : State) (x : Reg),
    (∃ t, exec (.ldDtVx x) s = .next t ∧ t.dt = s.getV x ∧ KeepsAllBut (· = .dt) s t) ∧
    ∃ t, exec (.ldStVx x) s = .next t ∧ t.st = s.getV x ∧ KeepsAllBut (· = .st) s t

/-! ### The host's operations -/

/-- 45_keypad_timers.md R245, R247 and 44_display.md R222 (operations of the spec's decisions D1, D33, D34; log entry 5): TICK
counts both timers down and stops at 0, KEY_SET writes one key, FB_READ gives every pixel and changes nothing. -/
def Obligations.HostOperationsTouchTheirPartAlone : Prop :=
  (∀ s : State, ∃ t, operate .tick s = .next t ∧ t.dt.toNat = s.dt.toNat - 1 ∧ t.st.toNat = s.st.toNat - 1 ∧
    KeepsAllBut (fun p => p = .dt ∨ p = .st) s t) ∧
  (∀ (s : State) (id : KeyId) (b : Bool), ∃ t, operate (.keySet id b) s = .next t ∧ t.key id = b ∧
    KeepsAllBut (· = .key id) s t) ∧
  ∀ s : State, operate .fbRead s = .next s ∧ ∀ (row : Fin 32) (col : Fin 64), s.fbRead[row][col] = s.fb.pixel row col

/-- 70_reset_and_hazards.md R305 (the spec's decision D29; log entry 19): a jump to itself is a quiescent state. -/
def Obligations.SelfJumpIsQuiescent : Prop :=
  ∀ (s : State) (addr : Addr12), Executes s (.jp addr) → s.pc.toNat = addr.toNat → Quiescent s

/-! ### What does not matter -/

/-- 00_scope.md R5 (the spec's decision D18; log entry 1): the random byte of a STEP is used by Cxkk alone. Two STEPs that differ
in it end alike, but for that input itself, unless the instruction is Cxkk. -/
def Obligations.RandomByteReachesRndAlone : Prop :=
  ∀ (s : State) (r r' : Byte), (∀ x kk, ¬Executes s (.rnd x kk)) →
    stepWith r' s = mapNext (fun t => { t with rnd := r' }) (stepWith r s)

/-- 10_state.md R27: no instruction reads ST, so a run cannot depend on it. -/
def Obligations.SoundTimerIsNeverRead : Prop :=
  ∀ (i : Instr) (s : State) (b : Byte), (∀ x, i ≠ .ldStVx x) →
    exec i { s with st := b } = mapNext (fun t => { t with st := b }) (exec i s)

/-- 10_state.md R25: a stack slot above SP is never read. Two states that differ in such slots only step alike, and end in
states that differ in such slots only. -/
def Obligations.StaleStackSlotsAreUnobservable : Prop :=
  ∀ s s' : State, SameButStaleSlots s s' →
    (∀ t, step s = .next t → ∃ t', step s' = .next t' ∧ SameButStaleSlots t t') ∧
    ∀ f, step s = .fault f → step s' = .fault f
end

