-- ==== Sys2Proof/Laws/Blit.lean ====
section
/-! SUPPORT. What the XOR-blit does, pixel by pixel, and when it reports a collision: the loops of R213 in closed form. -/

namespace Sys2Proof.Machine

/-- Writing one pixel changes that pixel alone, and nothing when it is outside the grid. -/
theorem pixel_setPixel (fb : Framebuffer) (row col r c : Nat) (b : Bool) :
    (fb.setPixel row col b).pixel r c =
      if r = row ∧ c = col ∧ row < 32 ∧ col < 64 then b else fb.pixel r c := by
  unfold Framebuffer.setPixel Framebuffer.pixel
  by_cases hin : row < 32 ∧ col < 64
  · simp only [hin, and_self, dif_pos, and_true]
    by_cases hrc : r < 32 ∧ c < 64
    · simp only [hrc, and_self, dif_pos]
      by_cases hr : r = row
      · subst hr
        simp only [Vector.getElem_set_self, Vector.getElem_set]
        by_cases hc : c = col
        · simp [hc]
        · simp [hc, Ne.symm hc]
      · simp [Ne.symm hr, hr]
    · simp only [hrc, dif_neg, not_false_eq_true]
      have : ¬(r = row ∧ c = col) := by
        rintro ⟨rfl, rfl⟩
        exact hrc hin
      simp [this]
  · have h2 : ¬(r = row ∧ c = col ∧ row < 32 ∧ col < 64) := fun h => hin h.2.2
    rw [dif_neg hin, if_neg h2]

/-- The cleared framebuffer has no set pixel. -/
@[simp] theorem pixel_clear (r c : Nat) : Framebuffer.clear.pixel r c = false := by
  unfold Framebuffer.clear Framebuffer.pixel
  split <;> simp

/-- Framebuffers with the same pixels are equal. -/
theorem framebuffer_ext (f g : Framebuffer) (h : ∀ (r : Fin 32) (c : Fin 64), f.pixel r c = g.pixel r c) : f = g := by
  apply Vector.ext
  intro r hr
  apply Vector.ext
  intro c hc
  have := h ⟨r, hr⟩ ⟨c, hc⟩
  simpa [Framebuffer.pixel, hr, hc] using this

/-- A pixel outside the grid reads false. -/
theorem pixel_outside (fb : Framebuffer) (r c : Nat) (h : ¬(r < 32 ∧ c < 64)) : fb.pixel r c = false := by
  simp [Framebuffer.pixel, h]

theorem blitPixel_pixel (p : Framebuffer × Bool) (row col r c : Nat) (bit : Bool) :
    (blitPixel p row col bit).1.pixel r c =
      (p.1.pixel r c ^^ (decide (r = row ∧ c = col ∧ r ≤ 31 ∧ c ≤ 63) && bit)) := by
  unfold blitPixel
  split
  · next h =>
    simp only [pixel_setPixel]
    by_cases he : r = row ∧ c = col
    · obtain ⟨rfl, rfl⟩ := he
      have h1 : r < 32 := by omega
      have h2 : c < 64 := by omega
      simp [h.1, h.2, h1, h2]
    · have h1 : ¬(r = row ∧ c = col ∧ row < 32 ∧ col < 64) := fun e => he ⟨e.1, e.2.1⟩
      have h2 : ¬(r = row ∧ c = col ∧ r ≤ 31 ∧ c ≤ 63) := fun e => he ⟨e.1, e.2.1⟩
      simp only [if_neg h1, decide_eq_false h2, Bool.false_and, Bool.xor_false]
  · next h =>
    have h2 : ¬(r = row ∧ c = col ∧ r ≤ 31 ∧ c ≤ 63) := by
      rintro ⟨rfl, rfl, h3, h4⟩
      exact h ⟨h4, h3⟩
    simp only [decide_eq_false h2, Bool.false_and, Bool.xor_false]

theorem blitPixel_hit (p : Framebuffer × Bool) (row col : Nat) (bit : Bool) :
    (blitPixel p row col bit).2 = true ↔
      p.2 = true ∨ (row ≤ 31 ∧ col ≤ 63 ∧ p.1.pixel row col = true ∧ bit = true) := by
  unfold blitPixel
  split
  · next h => simp [h.1, h.2]
  · next h =>
    constructor
    · exact Or.inl
    · rintro (h1 | ⟨h1, h2, -⟩)
      · exact h1
      · exact absurd ⟨h2, h1⟩ h

/-- The first `k` columns of one sprite row. -/
theorem blitColumns_spec (p : Framebuffer × Bool) (row x0 : Nat) (b : Byte) (k : Nat) :
    let q := (List.range k).foldl (fun p c => blitPixel p row (x0 + c) (b.getLsbD (7 - c))) p
    (∀ r c, q.1.pixel r c =
      (p.1.pixel r c ^^ (decide (r = row ∧ r ≤ 31 ∧ x0 ≤ c ∧ c < x0 + k ∧ c ≤ 63) && b.getLsbD (7 - (c - x0))))) ∧
    (q.2 = true ↔ p.2 = true ∨
      ∃ c, c < k ∧ row ≤ 31 ∧ x0 + c ≤ 63 ∧ p.1.pixel row (x0 + c) = true ∧ b.getLsbD (7 - c) = true) := by
  induction k with
  | zero =>
    refine ⟨fun r c => ?_, by simp⟩
    have h : ¬(r = row ∧ r ≤ 31 ∧ x0 ≤ c ∧ c < x0 + 0 ∧ c ≤ 63) := by omega
    simp only [List.range_zero, List.foldl_nil, decide_eq_false h, Bool.false_and, Bool.xor_false]
  | succ k ih =>
    simp only [List.range_succ, List.foldl_append, List.foldl_cons, List.foldl_nil]
    generalize (List.range k).foldl (fun p c => blitPixel p row (x0 + c) (b.getLsbD (7 - c))) p = q at ih ⊢
    obtain ⟨ihp, ihh⟩ := ih
    constructor
    · intro r c
      rw [blitPixel_pixel, ihp]
      by_cases hc : c = x0 + k
      · subst hc
        have h1 : ¬(r = row ∧ r ≤ 31 ∧ x0 ≤ x0 + k ∧ x0 + k < x0 + k ∧ x0 + k ≤ 63) := by omega
        have h2 : (r = row ∧ r ≤ 31 ∧ x0 ≤ x0 + k ∧ x0 + k < x0 + (k + 1) ∧ x0 + k ≤ 63) ↔
            (r = row ∧ x0 + k = x0 + k ∧ r ≤ 31 ∧ x0 + k ≤ 63) := by omega
        simp only [decide_eq_false h1, Bool.false_and, Bool.xor_false, decide_eq_decide.2 h2, Nat.add_sub_cancel_left]
      · have h1 : ¬(r = row ∧ c = x0 + k ∧ r ≤ 31 ∧ c ≤ 63) := fun e => hc e.2.1
        have h2 : (r = row ∧ r ≤ 31 ∧ x0 ≤ c ∧ c < x0 + (k + 1) ∧ c ≤ 63) ↔
            (r = row ∧ r ≤ 31 ∧ x0 ≤ c ∧ c < x0 + k ∧ c ≤ 63) := by omega
        simp only [decide_eq_false h1, Bool.false_and, Bool.xor_false, decide_eq_decide.2 h2]
    · have h1 : ¬(row = row ∧ row ≤ 31 ∧ x0 ≤ x0 + k ∧ x0 + k < x0 + k ∧ x0 + k ≤ 63) := by omega
      have hk : q.1.pixel row (x0 + k) = p.1.pixel row (x0 + k) := by
        rw [ihp, decide_eq_false h1, Bool.false_and, Bool.xor_false]
      rw [blitPixel_hit, ihh, hk]
      constructor
      · rintro ((h | ⟨c, hc, h⟩) | h)
        · exact Or.inl h
        · exact Or.inr ⟨c, by omega, h⟩
        · exact Or.inr ⟨k, by omega, h⟩
      · rintro (h | ⟨c, hc, h⟩)
        · exact Or.inl (Or.inl h)
        · rcases Nat.lt_succ_iff_lt_or_eq.1 hc with hc | rfl
          · exact Or.inl (Or.inr ⟨c, hc, h⟩)
          · exact Or.inr h

theorem blitRow_pixel (p : Framebuffer × Bool) (row x0 r c : Nat) (b : Byte) :
    (blitRow p row x0 b).1.pixel r c =
      (p.1.pixel r c ^^ (decide (r = row ∧ r ≤ 31 ∧ x0 ≤ c ∧ c < x0 + 8 ∧ c ≤ 63) && b.getLsbD (7 - (c - x0)))) :=
  (blitColumns_spec p row x0 b 8).1 r c

theorem blitRow_hit (p : Framebuffer × Bool) (row x0 : Nat) (b : Byte) :
    (blitRow p row x0 b).2 = true ↔ p.2 = true ∨
      ∃ c, c < 8 ∧ row ≤ 31 ∧ x0 + c ≤ 63 ∧ p.1.pixel row (x0 + c) = true ∧ b.getLsbD (7 - c) = true :=
  (blitColumns_spec p row x0 b 8).2

/-- The sprite bit that a blit of `n` rows puts on a pixel. -/
def blitBit (m : Memory) (a n x0 y0 r c : Nat) : Bool :=
  decide (y0 ≤ r ∧ r < y0 + n ∧ r ≤ 31 ∧ x0 ≤ c ∧ c < x0 + 8 ∧ c ≤ 63) && (m.read (a + (r - y0))).getLsbD (7 - (c - x0))

/-- The whole blit: every pixel is exclusive-ored with its sprite bit, and a hit is a set pixel that met a sprite bit 1. -/
theorem blit_spec (m : Memory) (a n x0 y0 : Nat) (p : Framebuffer × Bool) :
    (∀ r c, (blit m a n x0 y0 p).1.pixel r c = (p.1.pixel r c ^^ blitBit m a n x0 y0 r c)) ∧
    ((blit m a n x0 y0 p).2 = true ↔ p.2 = true ∨ ∃ r c, p.1.pixel r c = true ∧ blitBit m a n x0 y0 r c = true) := by
  unfold blit
  induction n with
  | zero =>
    have h0 : ∀ r c, blitBit m a 0 x0 y0 r c = false := by
      intro r c
      have h : ¬(y0 ≤ r ∧ r < y0 + 0 ∧ r ≤ 31 ∧ x0 ≤ c ∧ c < x0 + 8 ∧ c ≤ 63) := by omega
      simp only [blitBit, decide_eq_false h, Bool.false_and]
    simp [h0]
  | succ n ih =>
    simp only [List.range_succ, List.foldl_append, List.foldl_cons, List.foldl_nil]
    generalize (List.range n).foldl (fun p r => blitRow p (y0 + r) x0 (m.read (a + r))) p = q at ih ⊢
    obtain ⟨ihp, ihh⟩ := ih
    have hnew : ∀ c, blitBit m a n x0 y0 (y0 + n) c = false := by
      intro c
      have h : ¬(y0 ≤ y0 + n ∧ y0 + n < y0 + n ∧ y0 + n ≤ 31 ∧ x0 ≤ c ∧ c < x0 + 8 ∧ c ≤ 63) := by omega
      simp only [blitBit, decide_eq_false h, Bool.false_and]
    have hsame : ∀ r c, r ≠ y0 + n → blitBit m a (n + 1) x0 y0 r c = blitBit m a n x0 y0 r c := by
      intro r c hr
      have h : (y0 ≤ r ∧ r < y0 + (n + 1) ∧ r ≤ 31 ∧ x0 ≤ c ∧ c < x0 + 8 ∧ c ≤ 63) ↔
          (y0 ≤ r ∧ r < y0 + n ∧ r ≤ 31 ∧ x0 ≤ c ∧ c < x0 + 8 ∧ c ≤ 63) := by omega
      simp only [blitBit, decide_eq_decide.2 h]
    have hrow : ∀ c, blitBit m a (n + 1) x0 y0 (y0 + n) c =
        (decide (y0 + n ≤ 31 ∧ x0 ≤ c ∧ c < x0 + 8 ∧ c ≤ 63) && (m.read (a + n)).getLsbD (7 - (c - x0))) := by
      intro c
      have h : (y0 ≤ y0 + n ∧ y0 + n < y0 + (n + 1) ∧ y0 + n ≤ 31 ∧ x0 ≤ c ∧ c < x0 + 8 ∧ c ≤ 63) ↔
          (y0 + n ≤ 31 ∧ x0 ≤ c ∧ c < x0 + 8 ∧ c ≤ 63) := by omega
      simp only [blitBit, decide_eq_decide.2 h, Nat.add_sub_cancel_left]
    constructor
    · intro r c
      rw [blitRow_pixel, ihp]
      by_cases hr : r = y0 + n
      · subst hr
        rw [hnew, hrow, Bool.xor_false]
        simp
      · have h : ¬(r = y0 + n ∧ r ≤ 31 ∧ x0 ≤ c ∧ c < x0 + 8 ∧ c ≤ 63) := fun e => hr e.1
        rw [hsame r c hr, decide_eq_false h, Bool.false_and, Bool.xor_false]
    · rw [blitRow_hit, ihh]
      simp only [ihp, hnew, Bool.xor_false]
      constructor
      · rintro ((h | ⟨r, c, h1, h2⟩) | ⟨c, hc, h1, h2, h3, h4⟩)
        · exact Or.inl h
        · refine Or.inr ⟨r, c, h1, ?_⟩
          rw [hsame]
          · exact h2
          · rintro rfl
            rw [hnew] at h2
            exact absurd h2 (by simp)
        · refine Or.inr ⟨y0 + n, x0 + c, h3, ?_⟩
          have h : y0 + n ≤ 31 ∧ x0 ≤ x0 + c ∧ x0 + c < x0 + 8 ∧ x0 + c ≤ 63 := by omega
          rw [hrow, decide_eq_true h, Nat.add_sub_cancel_left, h4, Bool.true_and]
      · rintro (h | ⟨r, c, h1, h2⟩)
        · exact Or.inl (Or.inl h)
        · by_cases hr : r = y0 + n
          · subst hr
            rw [hrow, Bool.and_eq_true, decide_eq_true_eq] at h2
            obtain ⟨⟨ha, hb, hc, hd⟩, he⟩ := h2
            obtain ⟨j, rfl⟩ : ∃ j, c = x0 + j := ⟨c - x0, by omega⟩
            rw [Nat.add_sub_cancel_left] at he
            exact Or.inr ⟨j, by omega, ha, hd, h1, he⟩
          · rw [hsame r c hr] at h2
            exact Or.inl (Or.inr ⟨r, c, h1, h2⟩)

end Sys2Proof.Machine
end

