-- ==== Sys2Proof/Laws/Encoding.lean ====
section
/-! SUPPORT. The fields of the words of each format, and what the masks of R96 keep of them. -/

namespace Sys2Proof

@[simp] theorem nibbleOf_toFin (b : Nibble) : nibbleOf b.toFin = b := rfl
@[simp] theorem toFin_nibbleOf (x : Fin 16) : (nibbleOf x).toFin = x := rfl

/-! ### Fields of the three word formats -/

theorem getLsbD_wordOfNibbles (op x y n : Nibble) (i : Nat) :
    (wordOfNibbles op x y n).getLsbD i =
      if i < 4 then n.getLsbD i else if i < 8 then y.getLsbD (i - 4) else if i < 12 then x.getLsbD (i - 8)
      else op.getLsbD (i - 12) := by
  have h : (op ++ x ++ y ++ n).getLsbD i =
      if i < 4 then n.getLsbD i else if i - 4 < 4 then y.getLsbD (i - 4)
      else if i - 4 - 4 < 4 then x.getLsbD (i - 4 - 4) else op.getLsbD (i - 4 - 4 - 4) := by
    simp only [BitVec.getLsbD_append]
  refine Eq.trans h ?_
  have e1 : i - 4 - 4 = i - 8 := by omega
  have e2 : i - 8 - 4 = i - 12 := by omega
  rw [e1, e2]
  by_cases h4 : i < 4
  · simp [h4]
  by_cases h8 : i < 8
  · have : i - 4 < 4 := by omega
    simp [h4, h8, this]
  by_cases h12 : i < 12
  · have h1 : ¬i - 4 < 4 := by omega
    have h2 : i - 8 < 4 := by omega
    simp [h4, h8, h12, h1, h2]
  · have h1 : ¬i - 4 < 4 := by omega
    have h2 : ¬i - 8 < 4 := by omega
    simp [h4, h8, h12, h1, h2]

theorem getLsbD_wordNnn (op : Nibble) (a : Addr12) (i : Nat) :
    (wordNnn op a).getLsbD i = if i < 12 then a.getLsbD i else op.getLsbD (i - 12) := by
  have h : (op ++ a).getLsbD i = if i < 12 then a.getLsbD i else op.getLsbD (i - 12) := by
    simp only [BitVec.getLsbD_append]
  exact h

theorem getLsbD_wordXkk (op : Nibble) (x : Reg) (kk : Byte) (i : Nat) :
    (wordXkk op x kk).getLsbD i =
      if i < 8 then kk.getLsbD i else if i < 12 then (nibbleOf x).getLsbD (i - 8) else op.getLsbD (i - 12) := by
  have h : (op ++ nibbleOf x ++ kk).getLsbD i =
      if i < 8 then kk.getLsbD i else if i - 8 < 4 then (nibbleOf x).getLsbD (i - 8) else op.getLsbD (i - 8 - 4) := by
    simp only [BitVec.getLsbD_append]
  refine Eq.trans h ?_
  have e2 : i - 8 - 4 = i - 12 := by omega
  rw [e2]
  by_cases h8 : i < 8
  · simp [h8]
  by_cases h12 : i < 12
  · have : i - 8 < 4 := by omega
    simp [h8, h12, this]
  · have : ¬i - 8 < 4 := by omega
    simp [h8, h12, this]

theorem getLsbD_wordOfBytes (hi lo : Byte) (i : Nat) :
    (wordOfBytes hi lo).getLsbD i = if i < 8 then lo.getLsbD i else hi.getLsbD (i - 8) := by
  have h : (hi ++ lo).getLsbD i = if i < 8 then lo.getLsbD i else hi.getLsbD (i - 8) := by
    simp only [BitVec.getLsbD_append]
  exact h

theorem extract_word (op x y n : Nibble) :
    (wordOfNibbles op x y n).extractLsb' 12 4 = op ∧ (wordOfNibbles op x y n).extractLsb' 8 4 = x ∧
    (wordOfNibbles op x y n).extractLsb' 4 4 = y ∧ (wordOfNibbles op x y n).extractLsb' 0 4 = n := by
  refine ⟨?_, ?_, ?_, ?_⟩ <;>
    · apply BitVec.eq_of_getLsbD_eq
      intro i hi
      simp only [BitVec.getLsbD_extractLsb', getLsbD_wordOfNibbles]
      interval_cases i <;> simp

theorem kkField_wordOfNibbles (op x y n : Nibble) (kk : Byte) (hy : kk.extractLsb' 4 4 = y) (hn : kk.extractLsb' 0 4 = n) :
    kkField (wordOfNibbles op x y n) = kk := by
  subst hy hn
  apply BitVec.eq_of_getLsbD_eq
  intro i hi
  simp only [kkField, BitVec.getLsbD_extractLsb', getLsbD_wordOfNibbles]
  interval_cases i <;> simp

/-- A word is its four nibbles. -/
theorem word_eq_nibbles (w : Word) :
    wordOfNibbles (w.extractLsb' 12 4) (w.extractLsb' 8 4) (w.extractLsb' 4 4) (w.extractLsb' 0 4) = w := by
  apply BitVec.eq_of_getLsbD_eq
  intro i hi
  simp only [BitVec.getLsbD_extractLsb', getLsbD_wordOfNibbles]
  interval_cases i <;> simp

theorem wordXkk_eq_nibbles (op : Nibble) (x : Reg) (kk : Byte) :
    wordXkk op x kk = wordOfNibbles op (nibbleOf x) (kk.extractLsb' 4 4) (kk.extractLsb' 0 4) := by
  apply BitVec.eq_of_getLsbD_eq
  intro i hi
  simp only [BitVec.getLsbD_extractLsb', getLsbD_wordOfNibbles, getLsbD_wordXkk]
  interval_cases i <;> simp

theorem wordNnn_eq_nibbles (op : Nibble) (a : Addr12) :
    wordNnn op a = wordOfNibbles op (a.extractLsb' 8 4) (a.extractLsb' 4 4) (a.extractLsb' 0 4) := by
  apply BitVec.eq_of_getLsbD_eq
  intro i hi
  simp only [BitVec.getLsbD_extractLsb', getLsbD_wordOfNibbles, getLsbD_wordNnn]
  interval_cases i <;> simp

theorem fields_wordOfNibbles (op x y n : Nibble) :
    opField (wordOfNibbles op x y n) = op.toFin ∧ xField (wordOfNibbles op x y n) = x.toFin ∧
    yField (wordOfNibbles op x y n) = y.toFin ∧ nField (wordOfNibbles op x y n) = n.toFin := by
  obtain ⟨h1, h2, h3, h4⟩ := extract_word op x y n
  simp only [opField, xField, yField, nField, nibbleAt, h1, h2, h3, h4, and_self]

theorem fields_wordXyn (op : Nibble) (x y : Reg) (n : Nibble) :
    opField (wordXyn op x y n) = op.toFin ∧ xField (wordXyn op x y n) = x ∧ yField (wordXyn op x y n) = y ∧
    nField (wordXyn op x y n) = n.toFin :=
  fields_wordOfNibbles op (nibbleOf x) (nibbleOf y) n

theorem fields_wordXkk (op : Nibble) (x : Reg) (kk : Byte) :
    opField (wordXkk op x kk) = op.toFin ∧ xField (wordXkk op x kk) = x ∧ kkField (wordXkk op x kk) = kk := by
  rw [wordXkk_eq_nibbles]
  obtain ⟨h1, h2, -, -⟩ := fields_wordOfNibbles op (nibbleOf x) (kk.extractLsb' 4 4) (kk.extractLsb' 0 4)
  exact ⟨h1, h2, kkField_wordOfNibbles _ _ _ _ kk rfl rfl⟩

theorem fields_wordNnn (op : Nibble) (a : Addr12) :
    opField (wordNnn op a) = op.toFin ∧ addrField (wordNnn op a) = a := by
  constructor
  · rw [wordNnn_eq_nibbles]
    exact (fields_wordOfNibbles op _ _ _).1
  · apply BitVec.eq_of_getLsbD_eq
    intro i hi
    simp only [addrField, BitVec.getLsbD_extractLsb', getLsbD_wordNnn]
    interval_cases i <;> simp

/-- A word is its op, x and kk. -/
theorem word_eq_xkk (w : Word) : wordXkk (w.extractLsb' 12 4) (xField w) (kkField w) = w := by
  have hx : nibbleOf (xField w) = w.extractLsb' 8 4 := rfl
  apply BitVec.eq_of_getLsbD_eq
  intro i hi
  rw [getLsbD_wordXkk, hx]
  simp only [kkField, BitVec.getLsbD_extractLsb']
  interval_cases i <;> simp

/-- A word is its op and addr. -/
theorem word_eq_nnn (w : Word) : wordNnn (w.extractLsb' 12 4) (addrField w) = w := by
  apply BitVec.eq_of_getLsbD_eq
  intro i hi
  simp only [addrField, BitVec.getLsbD_extractLsb', getLsbD_wordNnn]
  interval_cases i <;> simp

/-- The two bytes of a word, high byte first, are the word (R63). -/
@[simp] theorem wordOfBytes_high_low (w : Word) : wordOfBytes (highByte w) (lowByte w) = w := by
  apply BitVec.eq_of_getLsbD_eq
  intro i hi
  simp only [highByte, lowByte, BitVec.getLsbD_extractLsb', getLsbD_wordOfBytes]
  interval_cases i <;> simp

/-- The big-endian combination is MEM[P] * 256 + MEM[P + 1] (R63). -/
theorem wordOfBytes_eq_sum (hi lo : Byte) : wordOfBytes hi lo = BitVec.ofNat 16 (hi.toNat * 256 + lo.toNat) := by
  apply BitVec.eq_of_toNat_eq
  have h1 := hi.isLt
  have h2 := lo.isLt
  rw [wordOfBytes, BitVec.toNat_append, BitVec.toNat_ofNat, Nat.shiftLeft_eq, Nat.mod_eq_of_lt (by omega)]
  rw [← Nat.shiftLeft_eq, ← Nat.shiftLeft_add_eq_or_of_lt h2, Nat.shiftLeft_eq]

/-! ### What the masks of R96 keep -/

theorem mask_F000 (op x y n : Nibble) : wordOfNibbles op x y n &&& 0xF000 = wordOfNibbles op 0 0 0 := by
  apply BitVec.eq_of_getLsbD_eq
  intro i hi
  rw [BitVec.getLsbD_and, getLsbD_wordOfNibbles, getLsbD_wordOfNibbles]
  interval_cases i <;> simp

theorem mask_F00F (op x y n : Nibble) : wordOfNibbles op x y n &&& 0xF00F = wordOfNibbles op 0 0 n := by
  apply BitVec.eq_of_getLsbD_eq
  intro i hi
  rw [BitVec.getLsbD_and, getLsbD_wordOfNibbles, getLsbD_wordOfNibbles]
  interval_cases i <;> simp

theorem mask_F0FF (op x y n : Nibble) : wordOfNibbles op x y n &&& 0xF0FF = wordOfNibbles op 0 y n := by
  apply BitVec.eq_of_getLsbD_eq
  intro i hi
  rw [BitVec.getLsbD_and, getLsbD_wordOfNibbles, getLsbD_wordOfNibbles]
  interval_cases i <;> simp

end Sys2Proof
end

