-- ==== Sys2Proof/Laws/Memory.lean ====
section
/-! SUPPORT. The laws of the memory operations: a read after a write, what a write leaves alone, and that the canonical form is
kept. The read laws hold of every list of cells, canonical or not. -/

namespace Sys2Proof.Machine

theorem Memory.read_erase_same (m : Memory) (a : Nat) : (Memory.erase m a).read a = Config.resetByte a := by
  induction m with
  | nil => rfl
  | cons c m ih =>
    by_cases h : c.1 = a
    · simpa [Memory.erase, h] using ih
    · have h' : ¬a = c.1 := fun e => h e.symm
      simpa [Memory.erase, h, Memory.read, h'] using ih

theorem Memory.read_erase_other (m : Memory) {a b : Nat} (hne : b ≠ a) : (Memory.erase m a).read b = m.read b := by
  induction m with
  | nil => rfl
  | cons c m ih =>
    by_cases h : c.1 = a
    · simpa [Memory.erase, h, Memory.read, hne] using ih
    · by_cases hb : b = c.1
      · simp [Memory.erase, h, Memory.read, hb]
      · simpa [Memory.erase, h, Memory.read, hb] using ih

theorem Memory.read_insertCell_other (m : Memory) {a b : Nat} (v : Byte) (hne : b ≠ a) :
    (Memory.insertCell m a v).read b = m.read b := by
  induction m with
  | nil => simp [Memory.insertCell, Memory.read, hne]
  | cons c m ih =>
    obtain ⟨k, u⟩ := c
    by_cases h : a < k
    · simp [Memory.insertCell, h, Memory.read, hne]
    · simp [Memory.insertCell, h, Memory.read, ih]

theorem Memory.read_insertCell_same (m : Memory) (a : Nat) (v : Byte) (habs : ∀ c ∈ m, c.1 ≠ a) :
    (Memory.insertCell m a v).read a = v := by
  induction m with
  | nil => simp [Memory.insertCell, Memory.read]
  | cons c m ih =>
    obtain ⟨k, u⟩ := c
    have hk : a ≠ k := fun e => habs (k, u) (by simp) e.symm
    by_cases h : a < k
    · simp [Memory.insertCell, h, Memory.read]
    · simpa [Memory.insertCell, h, Memory.read, hk] using ih fun c hc => habs c (by simp [hc])

theorem Memory.erase_absent (m : Memory) (a : Nat) : ∀ c ∈ Memory.erase m a, c.1 ≠ a := by
  simp [Memory.erase]

/-- A byte written is the byte read there. -/
@[simp] theorem Memory.read_write_same (m : Memory) (a : Nat) (v : Byte) : (Memory.write m a v).read a = v := by
  unfold Memory.write
  split
  · next h => rw [Memory.read_erase_same, h]
  · exact Memory.read_insertCell_same _ _ _ (Memory.erase_absent m a)

/-- A write leaves every other address alone. -/
theorem Memory.read_write_other (m : Memory) {a b : Nat} (v : Byte) (hne : b ≠ a) :
    (Memory.write m a v).read b = m.read b := by
  unfold Memory.write
  split
  · exact Memory.read_erase_other m hne
  · rw [Memory.read_insertCell_other _ _ hne, Memory.read_erase_other m hne]

theorem Memory.read_write (m : Memory) (a b : Nat) (v : Byte) :
    (Memory.write m a v).read b = if b = a then v else m.read b := by
  by_cases h : b = a
  · simp [h]
  · simp [h, Memory.read_write_other m v h]

/-- After bytes are stored from `a` upwards, an address reads the byte stored there, or what it read before. -/
theorem Memory.read_writeBytes (m : Memory) (a b : Nat) (vs : List Byte) :
    (Memory.writeBytes m a vs).read b = if a ≤ b then vs.getD (b - a) (m.read b) else m.read b := by
  induction vs generalizing m a with
  | nil => simp [Memory.writeBytes]
  | cons v vs ih =>
    rw [Memory.writeBytes, ih, Memory.read_write]
    by_cases h : b = a
    · subst h
      simp
    · by_cases hle : a ≤ b
      · obtain ⟨j, rfl⟩ : ∃ j, b = a + 1 + j := ⟨b - (a + 1), by omega⟩
        have e : a + 1 + j - a = j + 1 := by omega
        have e' : a + 1 + j - (a + 1) = j := by omega
        simp only [e, e', if_pos hle, if_neg h, if_pos (Nat.le_add_right (a + 1) j), List.getD_cons_succ]
      · have hle' : ¬a + 1 ≤ b := by omega
        simp [h, hle, hle']

/-- Outside the stored bytes every address reads as before. -/
theorem Memory.read_writeBytes_outside (m : Memory) (a b : Nat) (vs : List Byte) (h : b < a ∨ a + vs.length ≤ b) :
    (Memory.writeBytes m a vs).read b = m.read b := by
  rw [Memory.read_writeBytes]
  split
  · rw [List.getD_eq_default]
    omega
  · rfl

theorem Memory.erase_wf (m : Memory) (a : Nat) (h : m.wf) : (Memory.erase m a).wf :=
  ⟨h.1.filter _, fun c hc => h.2 c (List.mem_of_mem_filter hc)⟩

theorem Memory.mem_insertCell (m : Memory) (a : Nat) (v : Byte) (c : Host.Cell) :
    c ∈ Memory.insertCell m a v ↔ c = (a, v) ∨ c ∈ m := by
  induction m with
  | nil => simp [Memory.insertCell]
  | cons d m ih =>
    obtain ⟨k, u⟩ := d
    by_cases h : a < k
    · simp [Memory.insertCell, h]
    · simp only [Memory.insertCell, h, if_false, List.mem_cons, ih]
      tauto

theorem Memory.insertCell_wf (m : Memory) (a : Nat) (v : Byte) (h : m.wf) (habs : ∀ c ∈ m, c.1 ≠ a)
    (ha : a < Config.memSize) (hv : v ≠ Config.resetByte a) : (Memory.insertCell m a v).wf := by
  refine ⟨?_, fun c hc => ?_⟩
  · have hs := h.1
    clear h
    induction m with
    | nil => simp [Memory.insertCell]
    | cons d m ih =>
      obtain ⟨k, u⟩ := d
      have hk : k ≠ a := habs (k, u) (by simp)
      rw [List.pairwise_cons] at hs
      by_cases hlt : a < k
      · simp only [Memory.insertCell, hlt, if_true, List.pairwise_cons, List.mem_cons]
        refine ⟨?_, hs.1, hs.2⟩
        rintro c (rfl | hc)
        · exact hlt
        · exact hlt.trans (hs.1 c hc)
      · simp only [Memory.insertCell, hlt, if_false, List.pairwise_cons]
        refine ⟨fun c hc => ?_, ih (fun c hc => habs c (by simp [hc])) hs.2⟩
        rcases (Memory.mem_insertCell m a v c).1 hc with rfl | hc
        · exact lt_of_le_of_ne (not_lt.1 hlt) hk
        · exact hs.1 c hc
  · rcases (Memory.mem_insertCell m a v c).1 hc with rfl | hc
    · exact ⟨ha, hv⟩
    · exact h.2 c hc

/-- A write in range keeps the canonical form. -/
theorem Memory.write_wf (m : Memory) (a : Nat) (v : Byte) (h : m.wf) (ha : a < Config.memSize) : (Memory.write m a v).wf := by
  unfold Memory.write
  split
  · exact Memory.erase_wf m a h
  · next hv => exact Memory.insertCell_wf _ a v (Memory.erase_wf m a h) (Memory.erase_absent m a) ha hv

/-- Storing bytes in range keeps the canonical form. -/
theorem Memory.writeBytes_wf (m : Memory) (a : Nat) (vs : List Byte) (h : m.wf) (ha : a + vs.length ≤ Config.memSize) :
    (Memory.writeBytes m a vs).wf := by
  induction vs generalizing m a with
  | nil => exact h
  | cons v vs ih =>
    simp only [List.length_cons] at ha
    exact ih _ _ (Memory.write_wf m a v h (by omega)) (by omega)

/-- Memories of the canonical form that read alike are equal. -/
theorem Memory.eq_of_read_eq (m m' : Memory) (h : m.wf) (h' : m'.wf) (hr : ∀ a, m.read a = m'.read a) : m = m' := by
  have low : ∀ (m : Memory) (a : Nat), (∀ c ∈ m, a < c.1) → m.read a = Config.resetByte a := by
    intro m a hm
    induction m with
    | nil => rfl
    | cons c m ih =>
      have hc := hm c (by simp)
      have hne : ¬a = c.1 := by omega
      simpa [Memory.read, hne] using ih fun d hd => hm d (by simp [hd])
  induction m generalizing m' with
  | nil =>
    cases m' with
    | nil => rfl
    | cons c m' =>
      have := hr c.1
      simp only [Memory.read, if_true] at this
      exact absurd this.symm (h'.2 c (by simp)).2
  | cons c m ih =>
    obtain ⟨hs, hw⟩ := h
    rw [List.pairwise_cons] at hs
    cases m' with
    | nil =>
      have := hr c.1
      simp only [Memory.read, if_true] at this
      exact absurd this (hw c (by simp)).2
    | cons c' m' =>
      obtain ⟨hs', hw'⟩ := h'
      rw [List.pairwise_cons] at hs'
      have hk : c.1 = c'.1 := by
        rcases lt_trichotomy c.1 c'.1 with hlt | he | hlt
        · have h1 := hr c.1
          rw [low (c' :: m') c.1 (by
            rintro d (_ | ⟨_, hd⟩)
            · exact hlt
            · exact hlt.trans (hs'.1 d hd))] at h1
          simp only [Memory.read, if_true] at h1
          exact absurd h1 (hw c (by simp)).2
        · exact he
        · have h1 := hr c'.1
          rw [low (c :: m) c'.1 (by
            rintro d (_ | ⟨_, hd⟩)
            · exact hlt
            · exact hlt.trans (hs.1 d hd))] at h1
          simp only [Memory.read, if_true] at h1
          exact absurd h1.symm (hw' c' (by simp)).2
      have hv : c.2 = c'.2 := by
        have h1 := hr c.1
        simpa [Memory.read, ← hk] using h1
      have hcc : c = c' := Prod.ext hk hv
      subst hcc
      congr 1
      refine ih m' ⟨hs.2, fun d hd => hw d (by simp [hd])⟩ ⟨hs'.2, fun d hd => hw' d (by simp [hd])⟩ fun a => ?_
      by_cases ha : a = c.1
      · rw [ha, low m _ hs.1, low m' _ hs'.1]
      · have h1 := hr a
        simpa [Memory.read, ha] using h1

end Sys2Proof.Machine
end

