-- ==== Sys2Proof/Laws/State.lean ====
section
/-! SUPPORT. What each update of the state leaves in each field: one lemma per field per update, all by rfl. -/

namespace Sys2Proof.Machine

variable (s : State)

/-! ### setV -/

@[simp] theorem setV_v (x : Reg) (b : Byte) : (s.setV x b).v = s.v.set x b := rfl
@[simp] theorem setV_i (x : Reg) (b : Byte) : (s.setV x b).i = s.i := rfl
@[simp] theorem setV_pc (x : Reg) (b : Byte) : (s.setV x b).pc = s.pc := rfl
@[simp] theorem setV_stack (x : Reg) (b : Byte) : (s.setV x b).stack = s.stack := rfl
@[simp] theorem setV_depth (x : Reg) (b : Byte) : (s.setV x b).depth = s.depth := rfl
@[simp] theorem setV_dt (x : Reg) (b : Byte) : (s.setV x b).dt = s.dt := rfl
@[simp] theorem setV_st (x : Reg) (b : Byte) : (s.setV x b).st = s.st := rfl
@[simp] theorem setV_fb (x : Reg) (b : Byte) : (s.setV x b).fb = s.fb := rfl
@[simp] theorem setV_keys (x : Reg) (b : Byte) : (s.setV x b).keys = s.keys := rfl
@[simp] theorem setV_kwState (x : Reg) (b : Byte) : (s.setV x b).kwState = s.kwState := rfl
@[simp] theorem setV_kwKey (x : Reg) (b : Byte) : (s.setV x b).kwKey = s.kwKey := rfl
@[simp] theorem setV_mem (x : Reg) (b : Byte) : (s.setV x b).mem = s.mem := rfl
@[simp] theorem setV_report (x : Reg) (b : Byte) : (s.setV x b).report = s.report := rfl
@[simp] theorem setV_rnd (x : Reg) (b : Byte) : (s.setV x b).rnd = s.rnd := rfl
@[simp] theorem setV_draws (x : Reg) (b : Byte) : (s.setV x b).draws = s.draws := rfl

/-! ### setVThenFlag -/

@[simp] theorem setVThenFlag_v (x : Reg) (b c : Byte) : (s.setVThenFlag x b c).v = (s.v.set x b).set Reg.vf c := rfl
@[simp] theorem setVThenFlag_i (x : Reg) (b c : Byte) : (s.setVThenFlag x b c).i = s.i := rfl
@[simp] theorem setVThenFlag_pc (x : Reg) (b c : Byte) : (s.setVThenFlag x b c).pc = s.pc := rfl
@[simp] theorem setVThenFlag_stack (x : Reg) (b c : Byte) : (s.setVThenFlag x b c).stack = s.stack := rfl
@[simp] theorem setVThenFlag_depth (x : Reg) (b c : Byte) : (s.setVThenFlag x b c).depth = s.depth := rfl
@[simp] theorem setVThenFlag_dt (x : Reg) (b c : Byte) : (s.setVThenFlag x b c).dt = s.dt := rfl
@[simp] theorem setVThenFlag_st (x : Reg) (b c : Byte) : (s.setVThenFlag x b c).st = s.st := rfl
@[simp] theorem setVThenFlag_fb (x : Reg) (b c : Byte) : (s.setVThenFlag x b c).fb = s.fb := rfl
@[simp] theorem setVThenFlag_keys (x : Reg) (b c : Byte) : (s.setVThenFlag x b c).keys = s.keys := rfl
@[simp] theorem setVThenFlag_kwState (x : Reg) (b c : Byte) : (s.setVThenFlag x b c).kwState = s.kwState := rfl
@[simp] theorem setVThenFlag_kwKey (x : Reg) (b c : Byte) : (s.setVThenFlag x b c).kwKey = s.kwKey := rfl
@[simp] theorem setVThenFlag_mem (x : Reg) (b c : Byte) : (s.setVThenFlag x b c).mem = s.mem := rfl
@[simp] theorem setVThenFlag_report (x : Reg) (b c : Byte) : (s.setVThenFlag x b c).report = s.report := rfl
@[simp] theorem setVThenFlag_rnd (x : Reg) (b c : Byte) : (s.setVThenFlag x b c).rnd = s.rnd := rfl
@[simp] theorem setVThenFlag_draws (x : Reg) (b c : Byte) : (s.setVThenFlag x b c).draws = s.draws := rfl

/-! ### setI -/

@[simp] theorem setI_v (w : Word) : (s.setI w).v = s.v := rfl
@[simp] theorem setI_i (w : Word) : (s.setI w).i = w := rfl
@[simp] theorem setI_pc (w : Word) : (s.setI w).pc = s.pc := rfl
@[simp] theorem setI_stack (w : Word) : (s.setI w).stack = s.stack := rfl
@[simp] theorem setI_depth (w : Word) : (s.setI w).depth = s.depth := rfl
@[simp] theorem setI_dt (w : Word) : (s.setI w).dt = s.dt := rfl
@[simp] theorem setI_st (w : Word) : (s.setI w).st = s.st := rfl
@[simp] theorem setI_fb (w : Word) : (s.setI w).fb = s.fb := rfl
@[simp] theorem setI_keys (w : Word) : (s.setI w).keys = s.keys := rfl
@[simp] theorem setI_kwState (w : Word) : (s.setI w).kwState = s.kwState := rfl
@[simp] theorem setI_kwKey (w : Word) : (s.setI w).kwKey = s.kwKey := rfl
@[simp] theorem setI_mem (w : Word) : (s.setI w).mem = s.mem := rfl
@[simp] theorem setI_report (w : Word) : (s.setI w).report = s.report := rfl
@[simp] theorem setI_rnd (w : Word) : (s.setI w).rnd = s.rnd := rfl
@[simp] theorem setI_draws (w : Word) : (s.setI w).draws = s.draws := rfl

/-! ### setPc -/

@[simp] theorem setPc_v (w : Word) : (s.setPc w).v = s.v := rfl
@[simp] theorem setPc_i (w : Word) : (s.setPc w).i = s.i := rfl
@[simp] theorem setPc_pc (w : Word) : (s.setPc w).pc = w := rfl
@[simp] theorem setPc_stack (w : Word) : (s.setPc w).stack = s.stack := rfl
@[simp] theorem setPc_depth (w : Word) : (s.setPc w).depth = s.depth := rfl
@[simp] theorem setPc_dt (w : Word) : (s.setPc w).dt = s.dt := rfl
@[simp] theorem setPc_st (w : Word) : (s.setPc w).st = s.st := rfl
@[simp] theorem setPc_fb (w : Word) : (s.setPc w).fb = s.fb := rfl
@[simp] theorem setPc_keys (w : Word) : (s.setPc w).keys = s.keys := rfl
@[simp] theorem setPc_kwState (w : Word) : (s.setPc w).kwState = s.kwState := rfl
@[simp] theorem setPc_kwKey (w : Word) : (s.setPc w).kwKey = s.kwKey := rfl
@[simp] theorem setPc_mem (w : Word) : (s.setPc w).mem = s.mem := rfl
@[simp] theorem setPc_report (w : Word) : (s.setPc w).report = s.report := rfl
@[simp] theorem setPc_rnd (w : Word) : (s.setPc w).rnd = s.rnd := rfl
@[simp] theorem setPc_draws (w : Word) : (s.setPc w).draws = s.draws := rfl

/-! ### advancePc -/

@[simp] theorem advancePc_v : s.advancePc.v = s.v := rfl
@[simp] theorem advancePc_i : s.advancePc.i = s.i := rfl
@[simp] theorem advancePc_pc : s.advancePc.pc = s.pc + 2 := rfl
@[simp] theorem advancePc_stack : s.advancePc.stack = s.stack := rfl
@[simp] theorem advancePc_depth : s.advancePc.depth = s.depth := rfl
@[simp] theorem advancePc_dt : s.advancePc.dt = s.dt := rfl
@[simp] theorem advancePc_st : s.advancePc.st = s.st := rfl
@[simp] theorem advancePc_fb : s.advancePc.fb = s.fb := rfl
@[simp] theorem advancePc_keys : s.advancePc.keys = s.keys := rfl
@[simp] theorem advancePc_kwState : s.advancePc.kwState = s.kwState := rfl
@[simp] theorem advancePc_kwKey : s.advancePc.kwKey = s.kwKey := rfl
@[simp] theorem advancePc_mem : s.advancePc.mem = s.mem := rfl
@[simp] theorem advancePc_report : s.advancePc.report = s.report := rfl
@[simp] theorem advancePc_rnd : s.advancePc.rnd = s.rnd := rfl
@[simp] theorem advancePc_draws : s.advancePc.draws = s.draws := rfl

/-! ### retryPc -/

@[simp] theorem retryPc_v : s.retryPc.v = s.v := rfl
@[simp] theorem retryPc_i : s.retryPc.i = s.i := rfl
@[simp] theorem retryPc_pc : s.retryPc.pc = s.pc - 2 := rfl
@[simp] theorem retryPc_stack : s.retryPc.stack = s.stack := rfl
@[simp] theorem retryPc_depth : s.retryPc.depth = s.depth := rfl
@[simp] theorem retryPc_dt : s.retryPc.dt = s.dt := rfl
@[simp] theorem retryPc_st : s.retryPc.st = s.st := rfl
@[simp] theorem retryPc_fb : s.retryPc.fb = s.fb := rfl
@[simp] theorem retryPc_keys : s.retryPc.keys = s.keys := rfl
@[simp] theorem retryPc_kwState : s.retryPc.kwState = s.kwState := rfl
@[simp] theorem retryPc_kwKey : s.retryPc.kwKey = s.kwKey := rfl
@[simp] theorem retryPc_mem : s.retryPc.mem = s.mem := rfl
@[simp] theorem retryPc_report : s.retryPc.report = s.report := rfl
@[simp] theorem retryPc_rnd : s.retryPc.rnd = s.rnd := rfl
@[simp] theorem retryPc_draws : s.retryPc.draws = s.draws := rfl

/-! ### storeBytes -/

@[simp] theorem storeBytes_v (a : Nat) (bs : List Byte) : (s.storeBytes a bs).v = s.v := rfl
@[simp] theorem storeBytes_i (a : Nat) (bs : List Byte) : (s.storeBytes a bs).i = s.i := rfl
@[simp] theorem storeBytes_pc (a : Nat) (bs : List Byte) : (s.storeBytes a bs).pc = s.pc := rfl
@[simp] theorem storeBytes_stack (a : Nat) (bs : List Byte) : (s.storeBytes a bs).stack = s.stack := rfl
@[simp] theorem storeBytes_depth (a : Nat) (bs : List Byte) : (s.storeBytes a bs).depth = s.depth := rfl
@[simp] theorem storeBytes_dt (a : Nat) (bs : List Byte) : (s.storeBytes a bs).dt = s.dt := rfl
@[simp] theorem storeBytes_st (a : Nat) (bs : List Byte) : (s.storeBytes a bs).st = s.st := rfl
@[simp] theorem storeBytes_fb (a : Nat) (bs : List Byte) : (s.storeBytes a bs).fb = s.fb := rfl
@[simp] theorem storeBytes_keys (a : Nat) (bs : List Byte) : (s.storeBytes a bs).keys = s.keys := rfl
@[simp] theorem storeBytes_kwState (a : Nat) (bs : List Byte) : (s.storeBytes a bs).kwState = s.kwState := rfl
@[simp] theorem storeBytes_kwKey (a : Nat) (bs : List Byte) : (s.storeBytes a bs).kwKey = s.kwKey := rfl
@[simp] theorem storeBytes_mem (a : Nat) (bs : List Byte) : (s.storeBytes a bs).mem = s.mem.writeBytes a bs := rfl
@[simp] theorem storeBytes_report (a : Nat) (bs : List Byte) : (s.storeBytes a bs).report = s.report := rfl
@[simp] theorem storeBytes_rnd (a : Nat) (bs : List Byte) : (s.storeBytes a bs).rnd = s.rnd := rfl
@[simp] theorem storeBytes_draws (a : Nat) (bs : List Byte) : (s.storeBytes a bs).draws = s.draws := rfl

/-! ### setDt -/

@[simp] theorem setDt_v (b : Byte) : (s.setDt b).v = s.v := rfl
@[simp] theorem setDt_i (b : Byte) : (s.setDt b).i = s.i := rfl
@[simp] theorem setDt_pc (b : Byte) : (s.setDt b).pc = s.pc := rfl
@[simp] theorem setDt_stack (b : Byte) : (s.setDt b).stack = s.stack := rfl
@[simp] theorem setDt_depth (b : Byte) : (s.setDt b).depth = s.depth := rfl
@[simp] theorem setDt_dt (b : Byte) : (s.setDt b).dt = b := rfl
@[simp] theorem setDt_st (b : Byte) : (s.setDt b).st = s.st := rfl
@[simp] theorem setDt_fb (b : Byte) : (s.setDt b).fb = s.fb := rfl
@[simp] theorem setDt_keys (b : Byte) : (s.setDt b).keys = s.keys := rfl
@[simp] theorem setDt_kwState (b : Byte) : (s.setDt b).kwState = s.kwState := rfl
@[simp] theorem setDt_kwKey (b : Byte) : (s.setDt b).kwKey = s.kwKey := rfl
@[simp] theorem setDt_mem (b : Byte) : (s.setDt b).mem = s.mem := rfl
@[simp] theorem setDt_report (b : Byte) : (s.setDt b).report = s.report := rfl
@[simp] theorem setDt_rnd (b : Byte) : (s.setDt b).rnd = s.rnd := rfl
@[simp] theorem setDt_draws (b : Byte) : (s.setDt b).draws = s.draws := rfl

/-! ### setSt -/

@[simp] theorem setSt_v (b : Byte) : (s.setSt b).v = s.v := rfl
@[simp] theorem setSt_i (b : Byte) : (s.setSt b).i = s.i := rfl
@[simp] theorem setSt_pc (b : Byte) : (s.setSt b).pc = s.pc := rfl
@[simp] theorem setSt_stack (b : Byte) : (s.setSt b).stack = s.stack := rfl
@[simp] theorem setSt_depth (b : Byte) : (s.setSt b).depth = s.depth := rfl
@[simp] theorem setSt_dt (b : Byte) : (s.setSt b).dt = s.dt := rfl
@[simp] theorem setSt_st (b : Byte) : (s.setSt b).st = b := rfl
@[simp] theorem setSt_fb (b : Byte) : (s.setSt b).fb = s.fb := rfl
@[simp] theorem setSt_keys (b : Byte) : (s.setSt b).keys = s.keys := rfl
@[simp] theorem setSt_kwState (b : Byte) : (s.setSt b).kwState = s.kwState := rfl
@[simp] theorem setSt_kwKey (b : Byte) : (s.setSt b).kwKey = s.kwKey := rfl
@[simp] theorem setSt_mem (b : Byte) : (s.setSt b).mem = s.mem := rfl
@[simp] theorem setSt_report (b : Byte) : (s.setSt b).report = s.report := rfl
@[simp] theorem setSt_rnd (b : Byte) : (s.setSt b).rnd = s.rnd := rfl
@[simp] theorem setSt_draws (b : Byte) : (s.setSt b).draws = s.draws := rfl

/-! ### raise -/

@[simp] theorem raise_v (c : Condition) (w : Word) : (s.raise c w).v = s.v := rfl
@[simp] theorem raise_i (c : Condition) (w : Word) : (s.raise c w).i = s.i := rfl
@[simp] theorem raise_pc (c : Condition) (w : Word) : (s.raise c w).pc = s.pc := rfl
@[simp] theorem raise_stack (c : Condition) (w : Word) : (s.raise c w).stack = s.stack := rfl
@[simp] theorem raise_depth (c : Condition) (w : Word) : (s.raise c w).depth = s.depth := rfl
@[simp] theorem raise_dt (c : Condition) (w : Word) : (s.raise c w).dt = s.dt := rfl
@[simp] theorem raise_st (c : Condition) (w : Word) : (s.raise c w).st = s.st := rfl
@[simp] theorem raise_fb (c : Condition) (w : Word) : (s.raise c w).fb = s.fb := rfl
@[simp] theorem raise_keys (c : Condition) (w : Word) : (s.raise c w).keys = s.keys := rfl
@[simp] theorem raise_kwState (c : Condition) (w : Word) : (s.raise c w).kwState = s.kwState := rfl
@[simp] theorem raise_kwKey (c : Condition) (w : Word) : (s.raise c w).kwKey = s.kwKey := rfl
@[simp] theorem raise_mem (c : Condition) (w : Word) : (s.raise c w).mem = s.mem := rfl
@[simp] theorem raise_report (c : Condition) (w : Word) : (s.raise c w).report = .raised c (s.pc - 2) w := rfl
@[simp] theorem raise_rnd (c : Condition) (w : Word) : (s.raise c w).rnd = s.rnd := rfl
@[simp] theorem raise_draws (c : Condition) (w : Word) : (s.raise c w).draws = s.draws := rfl

/-! ### beginStep -/

@[simp] theorem beginStep_v : s.beginStep.v = s.v := rfl
@[simp] theorem beginStep_i : s.beginStep.i = s.i := rfl
@[simp] theorem beginStep_pc : s.beginStep.pc = s.pc + 2 := rfl
@[simp] theorem beginStep_stack : s.beginStep.stack = s.stack := rfl
@[simp] theorem beginStep_depth : s.beginStep.depth = s.depth := rfl
@[simp] theorem beginStep_dt : s.beginStep.dt = s.dt := rfl
@[simp] theorem beginStep_st : s.beginStep.st = s.st := rfl
@[simp] theorem beginStep_fb : s.beginStep.fb = s.fb := rfl
@[simp] theorem beginStep_keys : s.beginStep.keys = s.keys := rfl
@[simp] theorem beginStep_kwState : s.beginStep.kwState = s.kwState := rfl
@[simp] theorem beginStep_kwKey : s.beginStep.kwKey = s.kwKey := rfl
@[simp] theorem beginStep_mem : s.beginStep.mem = s.mem := rfl
@[simp] theorem beginStep_report : s.beginStep.report = .none := rfl
@[simp] theorem beginStep_rnd : s.beginStep.rnd = s.rnd := rfl
@[simp] theorem beginStep_draws : s.beginStep.draws = s.draws := rfl

/-! ### tick -/

@[simp] theorem tick_v : s.tick.v = s.v := rfl
@[simp] theorem tick_i : s.tick.i = s.i := rfl
@[simp] theorem tick_pc : s.tick.pc = s.pc := rfl
@[simp] theorem tick_stack : s.tick.stack = s.stack := rfl
@[simp] theorem tick_depth : s.tick.depth = s.depth := rfl
@[simp] theorem tick_dt : s.tick.dt = countDown s.dt := rfl
@[simp] theorem tick_st : s.tick.st = countDown s.st := rfl
@[simp] theorem tick_fb : s.tick.fb = s.fb := rfl
@[simp] theorem tick_keys : s.tick.keys = s.keys := rfl
@[simp] theorem tick_kwState : s.tick.kwState = s.kwState := rfl
@[simp] theorem tick_kwKey : s.tick.kwKey = s.kwKey := rfl
@[simp] theorem tick_mem : s.tick.mem = s.mem := rfl
@[simp] theorem tick_report : s.tick.report = s.report := rfl
@[simp] theorem tick_rnd : s.tick.rnd = s.rnd := rfl
@[simp] theorem tick_draws : s.tick.draws = s.draws := rfl

/-! ### keySet -/

@[simp] theorem keySet_v (k : KeyId) (b : Bool) : (s.keySet k b).v = s.v := rfl
@[simp] theorem keySet_i (k : KeyId) (b : Bool) : (s.keySet k b).i = s.i := rfl
@[simp] theorem keySet_pc (k : KeyId) (b : Bool) : (s.keySet k b).pc = s.pc := rfl
@[simp] theorem keySet_stack (k : KeyId) (b : Bool) : (s.keySet k b).stack = s.stack := rfl
@[simp] theorem keySet_depth (k : KeyId) (b : Bool) : (s.keySet k b).depth = s.depth := rfl
@[simp] theorem keySet_dt (k : KeyId) (b : Bool) : (s.keySet k b).dt = s.dt := rfl
@[simp] theorem keySet_st (k : KeyId) (b : Bool) : (s.keySet k b).st = s.st := rfl
@[simp] theorem keySet_fb (k : KeyId) (b : Bool) : (s.keySet k b).fb = s.fb := rfl
@[simp] theorem keySet_keys (k : KeyId) (b : Bool) : (s.keySet k b).keys = s.keys.set k b := rfl
@[simp] theorem keySet_kwState (k : KeyId) (b : Bool) : (s.keySet k b).kwState = s.kwState := rfl
@[simp] theorem keySet_kwKey (k : KeyId) (b : Bool) : (s.keySet k b).kwKey = s.kwKey := rfl
@[simp] theorem keySet_mem (k : KeyId) (b : Bool) : (s.keySet k b).mem = s.mem := rfl
@[simp] theorem keySet_report (k : KeyId) (b : Bool) : (s.keySet k b).report = s.report := rfl
@[simp] theorem keySet_rnd (k : KeyId) (b : Bool) : (s.keySet k b).rnd = s.rnd := rfl
@[simp] theorem keySet_draws (k : KeyId) (b : Bool) : (s.keySet k b).draws = s.draws := rfl

end Sys2Proof.Machine
end

