-- ==== Sys2Proof/Laws/Ops.lean ====
section
/-! SUPPORT. The laws of the shared operations over registers, blocks of registers, the stack, the keypad and the fetch: one
lemma per operation that says everything it does. -/

namespace Sys2Proof.Machine

/-! ### V registers -/

theorem getV_setV (s : State) (x y : Reg) (b : Byte) : (s.setV x b).getV y = if y = x then b else s.getV y := by
  simp only [State.getV, State.setV, Fin.getElem_fin, Vector.getElem_set, Fin.val_eq_val, eq_comm]

@[simp] theorem getV_setV_same (s : State) (x : Reg) (b : Byte) : (s.setV x b).getV x = b := by simp [getV_setV]

theorem getV_setV_other (s : State) {x y : Reg} (b : Byte) (h : y ≠ x) : (s.setV x b).getV y = s.getV y := by
  simp [getV_setV, h]

theorem getV_setVThenFlag (s : State) (x y : Reg) (b c : Byte) :
    (s.setVThenFlag x b c).getV y = if y = .vf then c else if y = x then b else s.getV y := by
  simp [State.setVThenFlag, getV_setV]

@[simp] theorem getV_setI (s : State) (w : Word) (y : Reg) : (s.setI w).getV y = s.getV y := rfl
@[simp] theorem getV_setPc (s : State) (w : Word) (y : Reg) : (s.setPc w).getV y = s.getV y := rfl
@[simp] theorem getV_advancePc (s : State) (y : Reg) : s.advancePc.getV y = s.getV y := rfl
@[simp] theorem getV_retryPc (s : State) (y : Reg) : s.retryPc.getV y = s.getV y := rfl
@[simp] theorem getV_storeBytes (s : State) (a : Nat) (bs : List Byte) (y : Reg) : (s.storeBytes a bs).getV y = s.getV y := rfl
@[simp] theorem getV_setDt (s : State) (b : Byte) (y : Reg) : (s.setDt b).getV y = s.getV y := rfl
@[simp] theorem getV_setSt (s : State) (b : Byte) (y : Reg) : (s.setSt b).getV y = s.getV y := rfl
@[simp] theorem getV_raise (s : State) (c : Condition) (w : Word) (y : Reg) : (s.raise c w).getV y = s.getV y := rfl
@[simp] theorem getV_beginStep (s : State) (y : Reg) : s.beginStep.getV y = s.getV y := rfl
@[simp] theorem getV_tick (s : State) (y : Reg) : s.tick.getV y = s.getV y := rfl
@[simp] theorem getV_keySet (s : State) (k : KeyId) (b : Bool) (y : Reg) : (s.keySet k b).getV y = s.getV y := rfl

/-- A skip changes PC alone, by 2 when its condition holds. -/
theorem skipIf_eq (s : State) (c : Bool) : s.skipIf c = s.setPc (if c then s.pc + 2 else s.pc) := by
  cases c <;> rfl

/-- A block of registers written from a list changes the registers alone. -/
theorem setVs_eq (s : State) (k : Nat) (vs : List Byte) : s.setVs k vs = { s with v := (s.setVs k vs).v } := by
  induction vs generalizing s k with
  | nil => rfl
  | cons v vs ih =>
    unfold State.setVs
    split
    · rw [ih]
      rfl
    · rfl

/-- After registers V[k], V[k+1], ... are written from a list, each holds its byte of the list or what it held before. -/
theorem getV_setVs (s : State) (k : Nat) (vs : List Byte) (r : Reg) :
    (s.setVs k vs).getV r = if k ≤ r.val then vs.getD (r.val - k) (s.getV r) else s.getV r := by
  induction vs generalizing s k with
  | nil => simp [State.setVs]
  | cons v vs ih =>
    unfold State.setVs
    split
    · next h =>
      rw [ih, getV_setV]
      by_cases he : r.val = k
      · have hr : r = ⟨k, h⟩ := Fin.ext he
        subst hr
        simp
      · have hr : r ≠ ⟨k, h⟩ := fun e => he (by rw [e])
        by_cases hle : k ≤ r.val
        · have h1 : k + 1 ≤ r.val := by omega
          have e : r.val - k = (r.val - (k + 1)) + 1 := by omega
          simp only [if_neg hr, if_pos hle, if_pos h1, e, List.getD_cons_succ]
        · have h1 : ¬k + 1 ≤ r.val := by omega
          simp [hr, hle, h1]
    · next h =>
      have := r.isLt
      have hle : ¬k ≤ r.val := by omega
      simp [hle]

@[simp] theorem length_readBytes (s : State) (a n : Nat) : (s.readBytes a n).length = n := by simp [State.readBytes]

theorem getD_readBytes (s : State) (a n k : Nat) (d : Byte) :
    (s.readBytes a n).getD k d = if k < n then s.mem.read (a + k) else d := by
  simp only [State.readBytes, List.getD_eq_getElem?_getD, List.getElem?_map]
  by_cases h : k < n
  · simp [h]
  · simp [h]

@[simp] theorem length_firstVs (s : State) (x : Reg) : (s.firstVs x).length = x.val + 1 := by
  have := x.isLt
  simp [State.firstVs]

theorem getD_firstVs (s : State) (x r : Reg) (d : Byte) :
    (s.firstVs x).getD r.val d = if r ≤ x then s.getV r else d := by
  have hr := r.isLt
  simp only [State.firstVs, List.getD_eq_getElem?_getD]
  by_cases h : r ≤ x
  · have h' : r.val < x.val + 1 := by
      have : r.val ≤ x.val := h
      omega
    simp [h, h', State.getV]
  · have h' : ¬r.val < x.val + 1 := by
      have : ¬r.val ≤ x.val := h
      omega
    simp [h, h']

/-! ### The call stack -/

/-- SP is between -1 and 11. -/
theorem sp_bounds (s : State) : -1 ≤ s.sp ∧ s.sp ≤ 11 := by
  have := s.depth.isLt
  unfold State.sp
  omega

/-- A push answers exactly when SP is not 11; then it fills the slot above the top and moves SP up by one. -/
theorem push_eq_some (s t : State) (a : Word) :
    s.push a = some t ↔ ∃ h : s.depth.val < 12,
      t = { s with stack := s.stack.set s.depth.val a, depth := ⟨s.depth.val + 1, by omega⟩ } := by
  unfold State.push
  split
  · next h => simp [h, eq_comm]
  · next h => simp [h]

theorem push_eq_none (s : State) (a : Word) : s.push a = none ↔ s.sp = 11 := by
  have := s.depth.isLt
  unfold State.push State.sp
  split
  · next h => simp only [reduceCtorEq, false_iff]; omega
  · next h => simp only [true_iff]; omega

/-- A pop answers exactly when SP is not -1; then it gives the top slot and moves SP down by one. -/
theorem pop_eq_some (s t : State) (a : Word) :
    s.pop = some (a, t) ↔ ∃ h : 0 < s.depth.val,
      a = s.stack[s.depth.val - 1] ∧ t = { s with depth := ⟨s.depth.val - 1, by omega⟩ } := by
  unfold State.pop
  split
  · next h => simp [h, eq_comm]
  · next h => simp [h]

theorem pop_eq_none (s : State) : s.pop = none ↔ s.sp = -1 := by
  unfold State.pop State.sp
  split
  · next h => simp only [reduceCtorEq, false_iff]; omega
  · next h => simp only [true_iff]; omega

/-! ### Keypad, operands, ranges -/

theorem key_keySet (s : State) (k id : KeyId) (b : Bool) : (s.keySet id b).key k = if k = id then b else s.key k := by
  simp only [State.key, State.keySet, Fin.getElem_fin, Vector.getElem_set, Fin.val_eq_val, eq_comm]

/-- The scan finds a key exactly when one is pressed, and then the least (R236). -/
theorem firstKey_eq_some (s : State) (k : KeyId) :
    s.firstKey = some k ↔ s.key k = true ∧ ∀ j : KeyId, j < k → s.key j = false := by
  unfold State.firstKey
  rw [List.find?_eq_some_iff_getElem]
  constructor
  · rintro ⟨hk, i, hi, he, hlt⟩
    refine ⟨hk, fun j hj => ?_⟩
    have hik : i = k.val := by
      have := congrArg Fin.val he
      simpa using this
    have := hlt j.val (by rw [hik]; exact hj)
    simpa using this
  · rintro ⟨hk, hlt⟩
    refine ⟨hk, k.val, by simp, by simp, fun j hj => ?_⟩
    have := hlt ⟨j, by omega⟩ hj
    simpa using this

theorem firstKey_eq_none (s : State) : s.firstKey = none ↔ ∀ k : KeyId, s.key k = false := by
  simp [State.firstKey]

theorem keyOperand_eq_some (b : Byte) (k : KeyId) : keyOperand b = some k ↔ b.toNat = k.val := by
  unfold keyOperand
  have := k.isLt
  split
  · simp [Fin.ext_iff]
  · simp
    omega

theorem keyOperand_eq_none (b : Byte) : keyOperand b = none ↔ 15 < b.toNat := by
  unfold keyOperand
  split
  · simp; omega
  · simp; omega

theorem rangeOk_iff (a n : Nat) : rangeOk a n = true ↔ n = 0 ∨ a + n ≤ 4096 := by simp [rangeOk]

end Sys2Proof.Machine
end

