-- ==== Sys2Proof/Laws/Cycle.lean ====
section
/-! SUPPORT. The fetch and the cycle in the terms of Safety.lean, and how frames compose. -/

namespace Sys2Proof

open Sys2Proof.Machine

/-- The fetch answers the big-endian word of R63 when PC is at most 0xFFE (R121). -/
theorem fetch_of_canFetch (s : State) (h : CanFetch s) : s.fetch = some (opcodeAt s) := by
  have hr : rangeOk s.pc.toNat 2 = true := by
    rw [rangeOk_iff]
    unfold CanFetch at h
    omega
  simp [State.fetch, hr, opcodeAt, wordOfBytes_eq_sum]

/-- The fetch answers nothing when PC is 0xFFF or more (R121). -/
theorem fetch_eq_none (s : State) (h : 0xFFF ≤ s.pc.toNat) : s.fetch = none := by
  have hr : rangeOk s.pc.toNat 2 = false := by
    rw [Bool.eq_false_iff, ne_eq, rangeOk_iff]
    omega
  simp [State.fetch, hr]

/-- One cycle by cases: the fetch, then what the word decodes to (R120). -/
theorem cycle_eq (s : State) :
    cycle s =
      if s.pc.toNat ≤ 0xFFE then
        match decode (opcodeAt s) with
        | .instr i => exec i s.beginStep
        | .undefined _ => .next (s.beginStep.raise .undefinedOpcode (opcodeAt s))
      else .fault .addrOutOfRange := by
  by_cases h : s.pc.toNat ≤ 0xFFE
  · simp only [cycle, fetch_of_canFetch s h, if_pos h]
    rfl
  · simp only [cycle, fetch_eq_none s (by omega), if_neg h]

/-- A frame may be widened. -/
theorem KeepsAllBut.mono {c d : Place → Prop} {s t : State} (h : KeepsAllBut c s t) (hcd : ∀ p, c p → d p) :
    KeepsAllBut d s t :=
  fun p hp => h p fun hc => hp (hcd p hc)

theorem SameAt.refl (p : Place) (s : State) : SameAt p s s := by cases p <;> rfl

theorem SameAt.trans {p : Place} {s t u : State} (h : SameAt p s t) (h' : SameAt p t u) : SameAt p s u := by
  cases p <;> exact Eq.trans h' h

/-- Two frames in a row leave alone what both leave alone. -/
theorem KeepsAllBut.trans {c : Place → Prop} {s t u : State} (h : KeepsAllBut c s t) (h' : KeepsAllBut c t u) :
    KeepsAllBut c s u :=
  fun p hp => (h p hp).trans (h' p hp)

theorem keepsAllBut_setV (s : State) (x : Reg) (b : Byte) : KeepsAllBut (· = .v x) s (s.setV x b) := by
  intro p hp
  cases p with
  | v r => exact getV_setV_other s b fun e => hp (by rw [e])
  | _ => rfl

theorem keepsAllBut_setVThenFlag (s : State) (x : Reg) (b c : Byte) :
    KeepsAllBut (fun p => p = .v x ∨ p = .v .vf) s (s.setVThenFlag x b c) := by
  intro p hp
  cases p with
  | v r =>
    have h1 : r ≠ x := fun e => hp (Or.inl (by rw [e]))
    have h2 : r ≠ .vf := fun e => hp (Or.inr (by rw [e]))
    simp [SameAt, getV_setVThenFlag, h1, h2]
  | _ => rfl

theorem keepsAllBut_setPc (s : State) (w : Word) : KeepsAllBut (· = .pc) s (s.setPc w) := by
  intro p hp
  cases p with
  | pc => exact absurd rfl hp
  | _ => rfl

theorem keepsAllBut_storeBytes (s : State) (a : Nat) (vs : List Byte) :
    KeepsAllBut (IsByteOf a vs.length) s (s.storeBytes a vs) := by
  intro p hp
  cases p with
  | mem b =>
    refine Memory.read_writeBytes_outside s.mem a b vs ?_
    by_contra hin
    exact hp ⟨b - a, by omega, by congr 1; omega⟩
  | _ => rfl

end Sys2Proof
end

