-- ==== Sys2Proof/Laws/Display.lean ====
section
/-! SUPPORT. What DRW leaves, in the terms the statements use (spec 44_display.md R213 to R217). -/

namespace Sys2Proof

open Sys2Proof.Machine

/-- Inside the grid, the bit a blit puts on a pixel is DRW's sprite bit; outside it is false. -/
theorem blitBit_eq_spriteBit (s : State) (x y : Reg) (n : RowCount) (r c : Nat) :
    blitBit s.mem s.indexAddr n.val (s.startCol x) (s.startRow y) r c =
      (spriteBit s x y n r c && decide (r < 32 ∧ c < 64)) := by
  rw [Bool.eq_iff_iff]
  simp only [blitBit, spriteBit, Bool.and_eq_true, decide_eq_true_eq]
  constructor
  · rintro ⟨⟨h1, h2, h3, h4, h5, h6⟩, hb⟩
    exact ⟨⟨⟨h1, h2, h4, h5⟩, hb⟩, Nat.lt_succ_of_le h3, Nat.lt_succ_of_le h6⟩
  · rintro ⟨⟨⟨h1, h2, h4, h5⟩, hb⟩, h3, h6⟩
    exact ⟨⟨h1, h2, Nat.le_of_lt_succ h3, h4, h5, Nat.le_of_lt_succ h6⟩, hb⟩

/-- The pixels and the collision of DRW: an exclusive or with the sprite bits, and whether a set pixel met a sprite bit 1. -/
theorem drawn_spec (s : State) (x y : Reg) (n : RowCount) :
    (∀ (r : Fin 32) (c : Fin 64), (s.drawn x y n).1.pixel r c = (s.fb.pixel r c ^^ spriteBit s x y n r c)) ∧
    ((s.drawn x y n).2 = true ↔
      ∃ (r : Fin 32) (c : Fin 64), s.fb.pixel r c = true ∧ spriteBit s x y n r c = true) := by
  have h := blit_spec s.mem s.indexAddr n.val (s.startCol x) (s.startRow y) (s.fb, false)
  simp only [blitBit_eq_spriteBit] at h
  refine ⟨fun r c => by rw [State.drawn, h.1]; simp, ?_⟩
  rw [State.drawn, h.2]
  constructor
  · rintro (h | ⟨r, c, hp, hb⟩)
    · cases h
    · simp only [Bool.and_eq_true, decide_eq_true_eq] at hb
      exact ⟨⟨r, hb.2.1⟩, ⟨c, hb.2.2⟩, hp, hb.1⟩
  · rintro ⟨r, c, hp, hb⟩
    exact .inr ⟨r, c, hp, by simp [hb]⟩

end Sys2Proof
end

