-- ==== Sys2Proof/Laws/PerInstr.lean ====
section
/-! SUPPORT. Per-instruction laws. Family TableRow: the word of an instruction is selected by the instruction's own row of the
opcode table (spec 30_encoding.md R96), by that row's mask and match. -/

namespace Sys2Proof

/-- A row selects a word when the masked word is the row's match. -/
theorem rowSelects_of (r : Nat) (w mask value : Word) (h : tableMaskMatch[r - 1]? = some (mask, value)) (hr : 1 ≤ r)
    (hw : w &&& mask = value) : rowSelects r w = true := by
  simp [rowSelects, h, hr, hw]

/-- The word of the instruction is selected by its row of R96. -/
def Laws.TableRow.Statement (i : Instr) : Prop := rowSelects (tableRow i) (encode i) = true

theorem Laws.TableRow.cls (x : Nibble) : Laws.TableRow.Statement (.cls x) :=
  rowSelects_of _ _ _ _ rfl (Nat.le_of_ble_eq_true rfl) (mask_F0FF _ _ _ _)

theorem Laws.TableRow.ret (x : Nibble) : Laws.TableRow.Statement (.ret x) :=
  rowSelects_of _ _ _ _ rfl (Nat.le_of_ble_eq_true rfl) (mask_F0FF _ _ _ _)

theorem Laws.TableRow.jp (addr : Addr12) : Laws.TableRow.Statement (.jp addr) :=
  rowSelects_of _ _ _ _ rfl (Nat.le_of_ble_eq_true rfl) (by
    simp only [encode, wordNnn_eq_nibbles]
    exact mask_F000 _ _ _ _)

theorem Laws.TableRow.call (addr : Addr12) : Laws.TableRow.Statement (.call addr) :=
  rowSelects_of _ _ _ _ rfl (Nat.le_of_ble_eq_true rfl) (by
    simp only [encode, wordNnn_eq_nibbles]
    exact mask_F000 _ _ _ _)

theorem Laws.TableRow.seImm (x : Reg) (kk : Byte) : Laws.TableRow.Statement (.seImm x kk) :=
  rowSelects_of _ _ _ _ rfl (Nat.le_of_ble_eq_true rfl) (by
    simp only [encode, wordXkk_eq_nibbles]
    exact mask_F000 _ _ _ _)

theorem Laws.TableRow.sneImm (x : Reg) (kk : Byte) : Laws.TableRow.Statement (.sneImm x kk) :=
  rowSelects_of _ _ _ _ rfl (Nat.le_of_ble_eq_true rfl) (by
    simp only [encode, wordXkk_eq_nibbles]
    exact mask_F000 _ _ _ _)

theorem Laws.TableRow.seReg (x y : Reg) : Laws.TableRow.Statement (.seReg x y) :=
  rowSelects_of _ _ _ _ rfl (Nat.le_of_ble_eq_true rfl) (mask_F00F _ _ _ _)

theorem Laws.TableRow.ldImm (x : Reg) (kk : Byte) : Laws.TableRow.Statement (.ldImm x kk) :=
  rowSelects_of _ _ _ _ rfl (Nat.le_of_ble_eq_true rfl) (by
    simp only [encode, wordXkk_eq_nibbles]
    exact mask_F000 _ _ _ _)

theorem Laws.TableRow.addImm (x : Reg) (kk : Byte) : Laws.TableRow.Statement (.addImm x kk) :=
  rowSelects_of _ _ _ _ rfl (Nat.le_of_ble_eq_true rfl) (by
    simp only [encode, wordXkk_eq_nibbles]
    exact mask_F000 _ _ _ _)

theorem Laws.TableRow.ldReg (x y : Reg) : Laws.TableRow.Statement (.ldReg x y) :=
  rowSelects_of _ _ _ _ rfl (Nat.le_of_ble_eq_true rfl) (mask_F00F _ _ _ _)

theorem Laws.TableRow.orReg (x y : Reg) : Laws.TableRow.Statement (.orReg x y) :=
  rowSelects_of _ _ _ _ rfl (Nat.le_of_ble_eq_true rfl) (mask_F00F _ _ _ _)

theorem Laws.TableRow.andReg (x y : Reg) : Laws.TableRow.Statement (.andReg x y) :=
  rowSelects_of _ _ _ _ rfl (Nat.le_of_ble_eq_true rfl) (mask_F00F _ _ _ _)

theorem Laws.TableRow.xorReg (x y : Reg) : Laws.TableRow.Statement (.xorReg x y) :=
  rowSelects_of _ _ _ _ rfl (Nat.le_of_ble_eq_true rfl) (mask_F00F _ _ _ _)

theorem Laws.TableRow.addReg (x y : Reg) : Laws.TableRow.Statement (.addReg x y) :=
  rowSelects_of _ _ _ _ rfl (Nat.le_of_ble_eq_true rfl) (mask_F00F _ _ _ _)

theorem Laws.TableRow.subReg (x y : Reg) : Laws.TableRow.Statement (.subReg x y) :=
  rowSelects_of _ _ _ _ rfl (Nat.le_of_ble_eq_true rfl) (mask_F00F _ _ _ _)

theorem Laws.TableRow.shr (x : Reg) (y : Nibble) : Laws.TableRow.Statement (.shr x y) :=
  rowSelects_of _ _ _ _ rfl (Nat.le_of_ble_eq_true rfl) (mask_F00F _ _ _ _)

theorem Laws.TableRow.subn (x y : Reg) : Laws.TableRow.Statement (.subn x y) :=
  rowSelects_of _ _ _ _ rfl (Nat.le_of_ble_eq_true rfl) (mask_F00F _ _ _ _)

theorem Laws.TableRow.shl (x : Reg) (y : Nibble) : Laws.TableRow.Statement (.shl x y) :=
  rowSelects_of _ _ _ _ rfl (Nat.le_of_ble_eq_true rfl) (mask_F00F _ _ _ _)

theorem Laws.TableRow.sneReg (x y : Reg) (n : Nibble) : Laws.TableRow.Statement (.sneReg x y n) :=
  rowSelects_of _ _ _ _ rfl (Nat.le_of_ble_eq_true rfl) (mask_F000 _ _ _ _)

theorem Laws.TableRow.ldI (addr : Addr12) : Laws.TableRow.Statement (.ldI addr) :=
  rowSelects_of _ _ _ _ rfl (Nat.le_of_ble_eq_true rfl) (by
    simp only [encode, wordNnn_eq_nibbles]
    exact mask_F000 _ _ _ _)

theorem Laws.TableRow.jpV0 (addr : Addr12) : Laws.TableRow.Statement (.jpV0 addr) :=
  rowSelects_of _ _ _ _ rfl (Nat.le_of_ble_eq_true rfl) (by
    simp only [encode, wordNnn_eq_nibbles]
    exact mask_F000 _ _ _ _)

theorem Laws.TableRow.rnd (x : Reg) (kk : Byte) : Laws.TableRow.Statement (.rnd x kk) :=
  rowSelects_of _ _ _ _ rfl (Nat.le_of_ble_eq_true rfl) (by
    simp only [encode, wordXkk_eq_nibbles]
    exact mask_F000 _ _ _ _)

theorem Laws.TableRow.drw (x y : Reg) (n : RowCount) : Laws.TableRow.Statement (.drw x y n) :=
  rowSelects_of _ _ _ _ rfl (Nat.le_of_ble_eq_true rfl) (mask_F000 _ _ _ _)

theorem Laws.TableRow.skp (x : Reg) : Laws.TableRow.Statement (.skp x) :=
  rowSelects_of _ _ _ _ rfl (Nat.le_of_ble_eq_true rfl) (by
    simp only [encode, wordXkk_eq_nibbles]
    exact mask_F0FF _ _ _ _)

theorem Laws.TableRow.sknp (x : Reg) : Laws.TableRow.Statement (.sknp x) :=
  rowSelects_of _ _ _ _ rfl (Nat.le_of_ble_eq_true rfl) (by
    simp only [encode, wordXkk_eq_nibbles]
    exact mask_F0FF _ _ _ _)

theorem Laws.TableRow.ldVxDt (x : Reg) : Laws.TableRow.Statement (.ldVxDt x) :=
  rowSelects_of _ _ _ _ rfl (Nat.le_of_ble_eq_true rfl) (by
    simp only [encode, wordXkk_eq_nibbles]
    exact mask_F0FF _ _ _ _)

theorem Laws.TableRow.ldVxK (x : Reg) : Laws.TableRow.Statement (.ldVxK x) :=
  rowSelects_of _ _ _ _ rfl (Nat.le_of_ble_eq_true rfl) (by
    simp only [encode, wordXkk_eq_nibbles]
    exact mask_F0FF _ _ _ _)

theorem Laws.TableRow.ldDtVx (x : Reg) : Laws.TableRow.Statement (.ldDtVx x) :=
  rowSelects_of _ _ _ _ rfl (Nat.le_of_ble_eq_true rfl) (by
    simp only [encode, wordXkk_eq_nibbles]
    exact mask_F0FF _ _ _ _)

theorem Laws.TableRow.ldStVx (x : Reg) : Laws.TableRow.Statement (.ldStVx x) :=
  rowSelects_of _ _ _ _ rfl (Nat.le_of_ble_eq_true rfl) (by
    simp only [encode, wordXkk_eq_nibbles]
    exact mask_F0FF _ _ _ _)

theorem Laws.TableRow.addI (x : Reg) : Laws.TableRow.Statement (.addI x) :=
  rowSelects_of _ _ _ _ rfl (Nat.le_of_ble_eq_true rfl) (by
    simp only [encode, wordXkk_eq_nibbles]
    exact mask_F0FF _ _ _ _)

theorem Laws.TableRow.ldF (x : Reg) : Laws.TableRow.Statement (.ldF x) :=
  rowSelects_of _ _ _ _ rfl (Nat.le_of_ble_eq_true rfl) (by
    simp only [encode, wordXkk_eq_nibbles]
    exact mask_F0FF _ _ _ _)

theorem Laws.TableRow.ldB (x : Reg) : Laws.TableRow.Statement (.ldB x) :=
  rowSelects_of _ _ _ _ rfl (Nat.le_of_ble_eq_true rfl) (by
    simp only [encode, wordXkk_eq_nibbles]
    exact mask_F0FF _ _ _ _)

theorem Laws.TableRow.storeRegs (x : Reg) : Laws.TableRow.Statement (.storeRegs x) :=
  rowSelects_of _ _ _ _ rfl (Nat.le_of_ble_eq_true rfl) (by
    simp only [encode, wordXkk_eq_nibbles]
    exact mask_F0FF _ _ _ _)

theorem Laws.TableRow.loadRegs (x : Reg) : Laws.TableRow.Statement (.loadRegs x) :=
  rowSelects_of _ _ _ _ rfl (Nat.le_of_ble_eq_true rfl) (by
    simp only [encode, wordXkk_eq_nibbles]
    exact mask_F0FF _ _ _ _)

end Sys2Proof
end

