-- ==== Sys2Proof/Tests/Slice0.lean ====
section
/-! SUPPORT. Tests, by decide: ill-formed terms are refused, words written out from spec/30_encoding.md decode as they should, one
STEP of each instruction gives the values of spec/95_test_vectors.md (the vector's id stands in the comment), and for every
obligation with hypotheses a state and operands that meet them, at the boundary of each clause. -/

namespace Sys2Proof.Tests

open Sys2Proof Sys2Proof.Machine

/-! ### Helpers -/

/-- A freshly reset core with the word `w` at 0x200. -/
def placed (w : Word) : State := State.reset.placeWord 0x200 w

/-- A byte of memory imposed. -/
def poke (a : Nat) (b : Byte) (s : State) : State := s.storeBytes a [b]

/-- An outcome that is a next state with the stated property. -/
def nextHas (o : Host.Outcome State Fault Refusal) (p : State → Bool) : Bool :=
  match o with
  | .next t => p t
  | .fault _ => false
  | .refused _ => false

/-- An outcome that is this fault. -/
def faults (o : Host.Outcome State Fault Refusal) (f : Fault) : Bool :=
  match o with
  | .next _ => false
  | .fault g => g == f
  | .refused _ => false

/-- The number of pixels that are on. -/
def pixelsOn (s : State) : Nat := (s.fb.toList.map (fun row => row.toList.countP id)).sum

/-- Twelve return addresses held, each 0x0ABC. -/
def full (s : State) : State := { s with depth := 12, stack := .replicate 12 0x0ABC }

/-- The key wait in KeyDown with key 7. -/
def waitingFor7 (s : State) : State := { s with kwState := .keyDown, kwKey := 7 }

/-! ### Well-formedness: one ill-formed term for each check -/

theorem test_ill_formed_cls : (Instr.cls 1).wellFormed = false := by decide
theorem test_ill_formed_ret : (Instr.ret 0xF).wellFormed = false := by decide
theorem test_ill_formed_sneReg : (Instr.sneReg 1 2 0xF).wellFormed = false := by decide
theorem test_well_formed : (Instr.cls 0).wellFormed = true ∧ (Instr.ret 0).wellFormed = true ∧
    (Instr.sneReg 1 2 0).wellFormed = true ∧ (Instr.shr 1 7).wellFormed = true := by decide

/-! ### Decoding: words written out bit by bit as op, x, y, n (R91, R92, R96), every constructor once -/

theorem test_decode_display : decode 0b0000000011100000#16 = .instr (.cls 0) ∧
    decode 0b1101101101011001#16 = .instr (.drw 0xB 5 9) := by decide

theorem test_decode_jumps : decode 0b0000000011101110#16 = .instr (.ret 0) ∧
    decode 0b0001101010111100#16 = .instr (.jp 0xABC) ∧ decode 0b0010001000110001#16 = .instr (.call 0x231) ∧
    decode 0b1011111111111111#16 = .instr (.jpV0 0xFFF) := by decide

theorem test_decode_compares : decode 0b0011000101000010#16 = .instr (.seImm 1 0x42) ∧
    decode 0b0100111110000001#16 = .instr (.sneImm 0xF 0x81) ∧ decode 0b0101000100100000#16 = .instr (.seReg 1 2) ∧
    decode 0b1001000100100000#16 = .instr (.sneReg 1 2 0) := by decide

theorem test_decode_loads : decode 0b0110000101000010#16 = .instr (.ldImm 1 0x42) ∧
    decode 0b0111000111111111#16 = .instr (.addImm 1 0xFF) ∧ decode 0b1000000100100000#16 = .instr (.ldReg 1 2) ∧
    decode 0b1100000111110000#16 = .instr (.rnd 1 0xF0) := by decide

theorem test_decode_alu : decode 0b1000000100100001#16 = .instr (.orReg 1 2) ∧
    decode 0b1000000100100010#16 = .instr (.andReg 1 2) ∧ decode 0b1000000100100011#16 = .instr (.xorReg 1 2) ∧
    decode 0b1000000100100100#16 = .instr (.addReg 1 2) ∧ decode 0b1000000100100101#16 = .instr (.subReg 1 2) ∧
    decode 0b1000000100100110#16 = .instr (.shr 1 2) ∧ decode 0b1000000100100111#16 = .instr (.subn 1 2) ∧
    decode 0b1000000100101110#16 = .instr (.shl 1 2) := by decide

theorem test_decode_index : decode 0b1010000100100011#16 = .instr (.ldI 0x123) ∧
    decode 0b1111000100011110#16 = .instr (.addI 1) ∧ decode 0b1111000100101001#16 = .instr (.ldF 1) ∧
    decode 0b1111000100110011#16 = .instr (.ldB 1) ∧ decode 0b1111001001010101#16 = .instr (.storeRegs 2) ∧
    decode 0b1111000101100101#16 = .instr (.loadRegs 1) := by decide

theorem test_decode_keypad_timers : decode 0b1110001010011110#16 = .instr (.skp 2) ∧
    decode 0b1110001010100001#16 = .instr (.sknp 2) ∧ decode 0b1111010000000111#16 = .instr (.ldVxDt 4) ∧
    decode 0b1111001100001010#16 = .instr (.ldVxK 3) ∧ decode 0b1111010000010101#16 = .instr (.ldDtVx 4) ∧
    decode 0b1111010000011000#16 = .instr (.ldStVx 4) := by decide

-- N6, N7, N11: the words with unexamined digits set.
theorem test_decode_unexamined_digits : decode 0x01E0 = .instr (.cls 1) ∧ decode 0x0FEE = .instr (.ret 0xF) ∧
    decode 0x912F = .instr (.sneReg 1 2 0xF) := by decide

-- N3, N4, N5, N9, N12, N13, N14, N16, N18, N19, N21.
theorem test_decode_undefined : decode 0x0000 = .undefined .op0 ∧ decode 0x0123 = .undefined .op0 ∧
    decode 0x00E1 = .undefined .op0 ∧ decode 0x5121 = .undefined .op5 ∧ decode 0x8128 = .undefined .op8 ∧
    decode 0x812D = .undefined .op8 ∧ decode 0x812F = .undefined .op8 ∧ decode 0xE19F = .undefined .opE ∧
    decode 0xF100 = .undefined .opF ∧ decode 0xF175 = .undefined .opF ∧ decode 0xFFFF = .undefined .opF := by decide

-- R63: big-endian; R90: two bytes for every instruction.
theorem test_decode_bytes : decodeBytes [0x12, 0x34, 0x56] = .ok (.jp 0x234, [0x56]) ∧
    decodeBytes [0x51, 0x21] = .error (.undefined .op5) ∧ decodeBytes [0x12] = .error .truncated := by decide

theorem test_decode_table_word : decodeTableWord 16 0x812E = some (.shl 1 2) ∧ decodeTableWord 16 0x0000 = none := by
  decide

theorem test_fetch_word_is_fetched : State.fetch (State.reset.withFetchWord 16 0x1234) = some 0x1234 ∧
    State.fetch ({ State.reset with pc := 0xFFF }.withFetchWord 16 0x1234) = some 0x1234 := by decide

theorem test_step_runs_fetch_word : nextHas (step (State.reset.withFetchWord 16 0x6142)) (fun t =>
    t.getV 1 == 0x42 && t.pc == 0x202 && t.draws == 1 && t.report.code == 0) = true := by decide

/-! ### One STEP: control flow and the cycle -/

-- S6.
theorem test_ret_pops : nextHas (stepWith 0 (full (placed 0x00EE))) (fun t =>
    t.sp == 10 && t.pc == 0xABC && t.report.code == 0) = true := by decide

-- S5; R252: P and w.
theorem test_ret_empty : nextHas (stepWith 0 (placed 0x00EE)) (fun t =>
    t.sp == -1 && t.pc == 0x202 && t.report == .raised .stackUnderflow 0x200 0x00EE) = true := by decide

-- T12.
theorem test_jp : nextHas (stepWith 0 (placed 0x1ABC)) (fun t => t.pc == 0xABC) = true := by decide

-- S1.
theorem test_call_pushes : nextHas (stepWith 0 (placed 0x2300)) (fun t =>
    t.sp == 0 && t.stack[0] == 0x202 && t.pc == 0x300 && t.report.code == 0) = true := by decide

-- S4.
theorem test_call_full : nextHas (stepWith 0 (full (placed 0x2300))) (fun t =>
    t.sp == 11 && t.stack[11] == 0xABC && t.pc == 0x202 && t.report == .raised .stackOverflow 0x200 0x2300) = true := by
  decide

-- T1, T2.
theorem test_seImm : nextHas (stepWith 0 ((placed 0x3142).setV 1 0x42)) (fun t => t.pc == 0x204) = true ∧
    nextHas (stepWith 0 ((placed 0x3142).setV 1 0x43)) (fun t => t.pc == 0x202) = true := by decide

-- T3, T4.
theorem test_sneImm : nextHas (stepWith 0 ((placed 0x4142).setV 1 0x42)) (fun t => t.pc == 0x202) = true ∧
    nextHas (stepWith 0 ((placed 0x4142).setV 1 0x43)) (fun t => t.pc == 0x204) = true := by decide

-- T5, T6.
theorem test_seReg : nextHas (stepWith 0 (((placed 0x5120).setV 1 7).setV 2 7)) (fun t => t.pc == 0x204) = true ∧
    nextHas (stepWith 0 (((placed 0x5120).setV 1 7).setV 2 8)) (fun t => t.pc == 0x202) = true := by decide

-- T7, T8.
theorem test_sneReg : nextHas (stepWith 0 (((placed 0x9120).setV 1 7).setV 2 8)) (fun t => t.pc == 0x204) = true ∧
    nextHas (stepWith 0 (((placed 0x9120).setV 1 7).setV 2 7)) (fun t => t.pc == 0x202) = true := by decide

-- T15, T16.
theorem test_jpV0 : nextHas (stepWith 0 ((placed 0xB300).setV 0 0x10)) (fun t => t.pc == 0x310) = true ∧
    nextHas (stepWith 0 ((placed 0xBFFF).setV 0 0xFF)) (fun t =>
      t.pc == 0x10FE && faults (stepWith 0 t) .addrOutOfRange) = true := by decide

-- Z3.
theorem test_undefined_is_reported : nextHas (stepWith 0 (placed 0x5121)) (fun t =>
    t.pc == 0x202 && t.report == .raised .undefinedOpcode 0x200 0x5121) = true := by decide

-- Z4, and the fetch at 0xFFE of section 2.1.
theorem test_fetch_at_the_top : faults (step { State.reset with pc := 0xFFF }) .addrOutOfRange = true ∧
    nextHas (step { State.reset with pc := 0xFFE }) (fun t => t.pc == 0x1000 && t.report.code == 3) = true := by decide

-- Section 2.1: an odd PC.
theorem test_fetch_at_odd_pc : nextHas (stepWith 0 { poke 0x201 0x60 (poke 0x202 0x07 State.reset) with pc := 0x201 })
    (fun t => t.getV 0 == 7 && t.pc == 0x203) = true := by decide

/-! ### One STEP: load and arithmetic -/

-- A33.
theorem test_ldImm : nextHas (stepWith 0 (placed 0x6142)) (fun t => t.getV 1 == 0x42) = true := by decide

-- A30.
theorem test_addImm_never_flags : nextHas (stepWith 0 (((placed 0x7101).setV 1 0xFF).setV 15 7)) (fun t =>
    t.getV 1 == 0 && t.getV 15 == 7) = true := by decide

-- A35.
theorem test_ldReg : nextHas (stepWith 0 ((placed 0x8120).setV 2 0xEE)) (fun t =>
    t.getV 1 == 0xEE && t.getV 2 == 0xEE) = true := by decide

-- A37.
theorem test_orReg : nextHas (stepWith 0 ((((placed 0x8121).setV 1 0x0C).setV 2 0x0A).setV 15 9)) (fun t =>
    t.getV 1 == 0x0E && t.getV 15 == 9) = true := by decide

-- A38.
theorem test_andReg : nextHas (stepWith 0 ((((placed 0x8122).setV 1 0x0C).setV 2 0x0A).setV 15 9)) (fun t =>
    t.getV 1 == 0x08 && t.getV 15 == 9) = true := by decide

-- A39.
theorem test_xorReg : nextHas (stepWith 0 ((((placed 0x8123).setV 1 0x0C).setV 2 0x0A).setV 15 9)) (fun t =>
    t.getV 1 == 0x06 && t.getV 15 == 9) = true := by decide

-- A1.
theorem test_addReg_carry : nextHas (stepWith 0 (((placed 0x8124).setV 1 0xFF).setV 2 1)) (fun t =>
    t.getV 1 == 0 && t.getV 15 == 1) = true := by decide

-- A5.
theorem test_addReg_flag_wins : nextHas (stepWith 0 (((placed 0x8F14).setV 15 0xF0).setV 1 0x20)) (fun t =>
    t.getV 15 == 1) = true := by decide

-- A10, A11.
theorem test_subReg : nextHas (stepWith 0 (((placed 0x8125).setV 1 0).setV 2 1)) (fun t =>
      t.getV 1 == 0xFF && t.getV 15 == 0) = true ∧
    nextHas (stepWith 0 (((placed 0x8125).setV 1 0x10).setV 2 0x10)) (fun t =>
      t.getV 1 == 0 && t.getV 15 == 1) = true := by decide

-- A14.
theorem test_subReg_flag_wins : nextHas (stepWith 0 (((placed 0x8F15).setV 15 5).setV 1 6)) (fun t =>
    t.getV 15 == 0) = true := by decide

-- A20, with V2 set to show that it is ignored.
theorem test_shr : nextHas (stepWith 0 (((placed 0x8126).setV 1 0xFF).setV 2 0x40)) (fun t =>
    t.getV 1 == 0x7F && t.getV 15 == 1 && t.getV 2 == 0x40) = true := by decide

-- A24.
theorem test_shr_flag_wins : nextHas (stepWith 0 ((placed 0x8F06).setV 15 2)) (fun t => t.getV 15 == 0) = true := by decide

-- A16.
theorem test_subn : nextHas (stepWith 0 (((placed 0x8127).setV 1 1).setV 2 0)) (fun t =>
    t.getV 1 == 0xFF && t.getV 15 == 0) = true := by decide

-- A19.
theorem test_subn_flag_wins : nextHas (stepWith 0 (((placed 0x8F17).setV 15 5).setV 1 6)) (fun t =>
    t.getV 15 == 1) = true := by decide

-- A25, with V2 set to show that it is ignored.
theorem test_shl : nextHas (stepWith 0 (((placed 0x812E).setV 1 0xFF).setV 2 0x01)) (fun t =>
    t.getV 1 == 0xFE && t.getV 15 == 1 && t.getV 2 == 1) = true := by decide

-- A28.
theorem test_shl_flag_wins : nextHas (stepWith 0 ((placed 0x8F0E).setV 15 1)) (fun t => t.getV 15 == 0) = true := by decide

-- A41, A42.
theorem test_rnd : nextHas (stepWith 0x5A (placed 0xC1FF)) (fun t => t.getV 1 == 0x5A) = true ∧
    nextHas (stepWith 0xFF (placed 0xC10F)) (fun t => t.getV 1 == 0x0F) = true := by decide

/-! ### One STEP: index register and memory -/

-- X2.
theorem test_ldI : nextHas (stepWith 0 (placed 0xAFFF)) (fun t => t.i == 0xFFF) = true := by decide

-- X4, X3.
theorem test_addI : nextHas (stepWith 0 (((placed 0xF11E).setI 0xFFF).setV 1 1)) (fun t =>
      t.i == 0x1000 && t.getV 15 == 1) = true ∧
    nextHas (stepWith 0 (((placed 0xF11E).setI 0xFFE).setV 1 1)) (fun t => t.i == 0xFFF && t.getV 15 == 0) = true := by
  decide

-- X6, X7.
theorem test_addI_wraps : nextHas (stepWith 0 (((placed 0xF11E).setI 0xFFFF).setV 1 1)) (fun t =>
      t.i == 0 && t.getV 15 == 1) = true ∧
    nextHas (stepWith 0 (((placed 0xFF1E).setI 0x10).setV 15 0x20)) (fun t => t.i == 0x30 && t.getV 15 == 0) = true := by
  decide

-- X11, X12.
theorem test_ldF : nextHas (stepWith 0 ((placed 0xF129).setV 1 0x1A)) (fun t => t.i == 0x32) = true ∧
    nextHas (stepWith 0 ((placed 0xF129).setV 1 0xFF)) (fun t => t.i == 0x4B) = true := by decide

-- X18.
theorem test_ldB : nextHas (stepWith 0 (((placed 0xF133).setI 0x300).setV 1 0x80)) (fun t =>
    t.mem.read 0x300 == 1 && t.mem.read 0x301 == 2 && t.mem.read 0x302 == 8) = true := by decide

-- X23.
theorem test_ldB_stops : faults (stepWith 0 ((placed 0xF133).setI 0xFFE)) .addrOutOfRange = true := by decide

-- X24.
theorem test_storeRegs : nextHas (stepWith 0 ((((placed 0xF255).setI 0x400).setV 0 0x11).setV 1 0x22 |>.setV 2 0x33))
    (fun t => t.mem.read 0x400 == 0x11 && t.mem.read 0x401 == 0x22 && t.mem.read 0x402 == 0x33 &&
      t.mem.read 0x403 == 0 && t.i == 0x400) = true := by decide

-- X27.
theorem test_storeRegs_stops : faults (stepWith 0 ((placed 0xF255).setI 0xFFE)) .addrOutOfRange = true := by decide

-- X28.
theorem test_loadRegs : nextHas (stepWith 0 ((placed 0xF365).setI 5)) (fun t =>
    t.getV 0 == 0x20 && t.getV 1 == 0x60 && t.getV 2 == 0x20 && t.getV 3 == 0x20 && t.getV 4 == 0 && t.i == 5) = true := by
  decide

-- X30.
theorem test_loadRegs_reads_code : nextHas (stepWith 0 ((placed 0xF065).setI 0x200)) (fun t => t.getV 0 == 0xF0) = true := by
  decide

/-! ### One STEP: display -/

-- G12.
theorem test_cls : nextHas (stepWith 0 ({ placed 0x00E0 with fb := Framebuffer.clear.setPixel 3 4 true }.setV 15 1))
    (fun t => pixelsOn t == 0 && t.getV 15 == 1) = true := by decide +kernel

-- G3, G5.
theorem test_drw_clips_and_wraps : nextHas (stepWith 0 (((poke 0x300 0xFF (placed 0xD011)).setI 0x300).setV 0 0x3C))
      (fun t => pixelsOn t == 4 && t.fb.pixel 0 60 && t.fb.pixel 0 63 && t.getV 15 == 0) = true ∧
    nextHas (stepWith 0 ((((poke 0x300 0xC0 (placed 0xD011)).setI 0x300).setV 0 0x43).setV 1 0x22))
      (fun t => pixelsOn t == 2 && t.fb.pixel 2 3 && t.fb.pixel 2 4 && t.getV 15 == 0) = true := by decide +kernel

-- G6, G11.
theorem test_drw_collides_and_draws : nextHas (stepWith 0 { (poke 0x300 0xC0 (placed 0xD011)).setI 0x300 with
      fb := Framebuffer.clear.setPixel 0 0 true })
      (fun t => pixelsOn t == 1 && t.fb.pixel 0 1 && t.getV 15 == 1) = true ∧
    nextHas (stepWith 0 (placed 0xD015)) (fun t => pixelsOn t == 14 && t.fb.pixel 0 3 && !t.fb.pixel 1 1 &&
      t.fb.pixel 4 0 && t.getV 15 == 0) = true := by decide +kernel

/-! ### One STEP: keypad and timers -/

-- K1, K2.
theorem test_skp : nextHas (stepWith 0 (((placed 0xE29E).setV 2 5).keySet 5 true)) (fun t => t.pc == 0x204) = true ∧
    nextHas (stepWith 0 ((placed 0xE29E).setV 2 5)) (fun t => t.pc == 0x202) = true := by decide

-- K3, K4.
theorem test_sknp : nextHas (stepWith 0 ((placed 0xE2A1).setV 2 5)) (fun t => t.pc == 0x204) = true ∧
    nextHas (stepWith 0 (((placed 0xE2A1).setV 2 5).keySet 5 true)) (fun t => t.pc == 0x202) = true := by decide

-- K5.
theorem test_key_above_15_stops : faults (stepWith 0 ((placed 0xE29E).setV 2 0x10)) .keyIndexOutOfRange = true ∧
    faults (stepWith 0 ((placed 0xE2A1).setV 2 0x10)) .keyIndexOutOfRange = true := by decide

-- K6, the row after both 9 and 4 are pressed: the lower id.
theorem test_key_wait_latches_lowest : nextHas (stepWith 0 (((placed 0xF30A).keySet 9 true).keySet 4 true)) (fun t =>
    t.kwState == .keyDown && t.kwKey == 4 && t.pc == 0x200 && t.getV 3 == 0) = true := by decide

-- K6, step 5.
theorem test_key_wait_delivers : nextHas (stepWith 0 ((waitingFor7 (placed 0xF30A)).keySet 3 true)) (fun t =>
    t.kwState == .waiting && t.getV 3 == 7 && t.pc == 0x202) = true := by decide

-- K7, K14.
theorem test_ldVxDt : nextHas (stepWith 0 { placed 0xF407 with dt := 0x3C }) (fun t =>
      t.getV 4 == 0x3C && t.dt == 0x3C) = true ∧
    nextHas (stepWith 0 { placed 0xFF07 with dt := 9 }) (fun t => t.getV 15 == 9) = true := by decide

-- K8.
theorem test_ldDtVx : nextHas (stepWith 0 ((placed 0xF415).setV 4 0x3C)) (fun t => t.dt == 0x3C && t.st == 0) = true := by
  decide

-- K9.
theorem test_ldStVx : nextHas (stepWith 0 ((placed 0xF418).setV 4 5)) (fun t => t.st == 5 && t.dt == 0) = true := by decide

/-! ### The host's operations -/

-- E1, R291: L = 2.
theorem test_load : (match State.load Config.font (some [0x12, 0x00]) with
    | .ok s => s.mem == [(0x200, 0x12)] && s.pc == 0x200
    | .error _ => false) = true := by decide +kernel

-- Z2, and R292 for a missing ROM.
theorem test_load_fails : (match State.load Config.font (some []), State.load Config.font none,
      State.load Config.font (some (List.replicate 3585 0)) with
    | .error .empty, .error .missing, .error .oversized => true
    | _, _, _ => false) = true := by decide +kernel

-- Z1: a ROM of one zero byte leaves the reset state.
theorem test_load_of_zero_is_reset : (match State.load Config.font (some [0]) with
    | .ok s => s == State.reset
    | .error _ => false) = true := by decide +kernel

-- K10, K11, K12.
theorem test_tick : ({ State.reset with dt := 2 }.tick.dt = 1) ∧ ({ State.reset with dt := 2 }.tick.st = 0) ∧
    ({ State.reset with st := 1 }.tick.dt = 0) ∧ ({ State.reset with st := 1 }.tick.st = 0) ∧
    ({ State.reset with dt := 0xFF }.tick.dt = 0xFE) := by decide

-- K13.
theorem test_key_set : (List.finRange 16).all (fun k => (State.reset.keySet 0xA true).key k == (k == 0xA)) = true := by decide

/-! ### Witnesses: the hypotheses of each obligation can be met -/

theorem witness_LoadInstallsFontAndRom : (0 < [(0x12 : Byte)].length ∧ [(0x12 : Byte)].length ≤ 3584) ∧
    0 < (List.replicate 3584 (7 : Byte)).length ∧ (List.replicate 3584 (7 : Byte)).length ≤ 3584 := by
  rw [List.length_replicate]
  decide

theorem witness_LoadDiscardsThePriorState : ∃ t, operate (.load Config.font (some [0x12])) State.reset.tick = .next t := by
  simp [operate, State.load, Config.romMax]

theorem witness_EncodeInvertsDecode : decode 0x8126 = .instr (.shr 1 2) := by decide

theorem witness_OpcodeTableRowsSelectTheirInstruction : rowSelects 1 0x0FE0 = true ∧ rowSelects 34 0xF165 = true := by decide

theorem witness_AliasesExecuteAsTheirCanonicalInstruction :
    (∃ t, exec (.ret 5) State.reset = .next t ∧ t.report.code = 2) ∧
    exec (.skp 0) (State.reset.setV 0 16) = .fault .keyIndexOutOfRange := ⟨⟨_, rfl, by decide⟩, rfl⟩

theorem witness_StepRunsTheDecodedInstruction : Executes (placed 0x1ABC) (.jp 0xABC) ∧
    Executes { poke 0xFFE 0x61 (poke 0xFFF 0x42 State.reset) with pc := 0xFFE } (.ldImm 1 0x42) :=
  ⟨⟨by decide, by decide⟩, by decide, by decide⟩

theorem witness_FetchAboveMemoryStops : 0xFFF ≤ ({ State.reset with pc := 0xFFF } : State).pc.toNat := by decide

theorem witness_UndefinedOpcodeIsAReportedNoOp : CanFetch State.reset ∧ CanFetch { State.reset with pc := 0xFFE } ∧
    IsUndefinedWord (opcodeAt (placed 0x00E1)) ∧ IsUndefinedWord (opcodeAt (placed 0x512F)) ∧
    IsUndefinedWord (opcodeAt (placed 0x812F)) ∧ IsUndefinedWord (opcodeAt (placed 0xE19F)) ∧
    IsUndefinedWord (opcodeAt (placed 0xF100)) :=
  ⟨by decide, by decide, .inl ⟨by decide, by decide⟩, .inr (.inl ⟨by decide, by decide⟩),
    .inr (.inr (.inl ⟨by decide, by decide⟩)), .inr (.inr (.inr (.inl ⟨by decide, by decide⟩))),
    .inr (.inr (.inr (.inr ⟨by decide, by decide⟩)))⟩

theorem witness_StepCompletesOrStops : CanFetch { State.reset with pc := 0xFFE } ∧
    Executes (placed 0xF30A) (.ldVxK 3) := ⟨by decide, by decide, by decide⟩

theorem witness_PcAfterEveryStep : ∃ t, step (placed 0x1ABC) = .next t ∧ t.pc = 0xABC := ⟨_, rfl, by decide⟩

theorem witness_ReportAfterEveryStep : ∃ t, step (full (placed 0x2300)) = .next t ∧ t.report.code = 1 :=
  ⟨_, rfl, by decide⟩

/-- A STEP from reset, whose memory holds no program, reports an undefined opcode. -/
theorem witness_ReportedStepsOnlyAdvancePc : ∃ t, step State.reset = .next t ∧ t.report.code ≠ 0 := ⟨_, rfl, by decide⟩

theorem witness_OnlyTheListedWritersWrite : ∃ t, exec (.storeRegs 1) State.reset = .next t := ⟨_, rfl⟩

theorem witness_StepKeepsMemoryCanonical : MemCanonical (placed 0xF133) ∧ ∃ t, step (placed 0xF133) = .next t :=
  ⟨show (placed 0xF133).mem.wf by decide, _, rfl⟩

theorem witness_StepKeepsPcBounded : PcBounded { State.reset with pc := 0xFFE } ∧
    ∃ t, step { State.reset with pc := 0xFFE } = .next t := ⟨⟨by decide, by decide⟩, _, rfl⟩

/-- A held key: the wait goes on at the same PC. -/
theorem witness_StepKeepsKeyWaitAtPc : KeyWaitAtPc ((waitingFor7 (placed 0xF30A)).keySet 7 true) ∧
    ∃ t, step ((waitingFor7 (placed 0xF30A)).keySet 7 true) = .next t ∧ t.kwState = .keyDown :=
  ⟨fun _ => ⟨3, by decide, by decide⟩, _, rfl, by decide⟩

theorem witness_HostSchedulesKeepTheInvariants : CoreInv State.reset ∧
    ∃ t, runOperations [.keySet 5 true, .step 9, .tick, .fbRead] State.reset = .next t :=
  ⟨⟨show State.reset.mem.wf by decide, ⟨by decide, by decide⟩, fun h => absurd h (by decide)⟩, _, rfl⟩

theorem witness_RetPopsOrReportsUnderflow : (full State.reset).sp = ((11 : Fin 12).val : Int) ∧
    ({ State.reset with depth := 1 } : State).sp = ((0 : Fin 12).val : Int) ∧ State.reset.sp = -1 := by decide

theorem witness_CallPushesOrReportsOverflow : State.reset.sp + 1 = ((0 : Fin 12).val : Int) ∧
    ({ State.reset with depth := 11 } : State).sp + 1 = ((11 : Fin 12).val : Int) ∧ (full State.reset).sp = 11 := by decide

theorem witness_RetResumesAfterTheCall : State.reset.sp < 11 ∧ ({ State.reset with depth := 11 } : State).sp < 11 ∧
    ∃ t, exec (.call 0x300) State.reset = .next t ∧ t.sp = 0 := ⟨by decide, by decide, _, rfl, by decide⟩

theorem witness_flag_register_is_another : (1 : Reg) ≠ .vf := by decide

theorem witness_RndMasksTheDraw : Executes (placed 0xC10F) (.rnd 1 0x0F) := ⟨by decide, by decide⟩

theorem witness_FlagSettersLeaveZeroOrOne : setsFlag (.addReg 1 2) = true ∧ ∃ t, exec (.addReg 1 2) State.reset = .next t :=
  ⟨by decide, _, rfl⟩

theorem witness_LdFPointsAtTheGlyph : ∃ s, State.load Config.font (some [0x12]) = .ok s := by
  simp [State.load, Config.romMax]

theorem witness_LdBStoresThreeDigits : (State.reset.setI 0xFFD).i.toNat + 2 ≤ 0xFFF ∧
    0xFFF < (State.reset.setI 0xFFE).i.toNat + 2 := by decide

theorem witness_StoreRegistersCopiesToMemory : (State.reset.setI 0xFF0).i.toNat + (15 : Reg).val ≤ 0xFFF ∧
    0xFFF < (State.reset.setI 0xFF1).i.toNat + (15 : Reg).val ∧
    0xFFF < (State.reset.setI 0x1000).i.toNat + (0 : Reg).val := by decide

theorem witness_LoadRegistersCopiesFromMemory : (State.reset.setI 0xFFF).i.toNat + (0 : Reg).val ≤ 0xFFF ∧
    0xFFF < (State.reset.setI 0xFFF).i.toNat + (1 : Reg).val := by decide

theorem witness_StoredBytesAreFetched : ∃ t, exec (.storeRegs 1) (State.reset.setI 0x200) = .next t ∧
    t.pc.toNat = (State.reset.setI 0x200).i.toNat + (0 : Reg).val ∧ (1 : Reg).val = (0 : Reg).val + 1 ∧ (1 : Reg) ≤ 1 :=
  ⟨_, rfl, by decide, by decide, by decide⟩

theorem witness_DrwBlitsTheSprite : (0 : RowCount).val = 0 ∧
    (State.reset.setI 0xFFF).i.toNat + (1 : RowCount).val - 1 ≤ 0xFFF ∧ 0 < (2 : RowCount).val ∧
    0xFFF < (State.reset.setI 0xFFF).i.toNat + (2 : RowCount).val - 1 := by decide

/-- The second draw starts from the very state that the first one left. -/
theorem witness_DrawingTwiceRestoresTheFramebuffer : ∃ t, exec (.drw 0 1 5) State.reset = .next t ∧
    (t.getV 0).toNat % 64 = (State.reset.getV 0).toNat % 64 ∧ (t.getV 1).toNat % 32 = (State.reset.getV 1).toNat % 32 ∧
    t.i.toNat + (5 : RowCount).val ≤ 4096 ∧
    ∀ r, r < (5 : RowCount).val → t.mem.read (t.i.toNat + r) = State.reset.mem.read (State.reset.i.toNat + r) :=
  ⟨_, rfl, by decide, by decide, by decide, fun _ _ => rfl⟩

theorem witness_KeySkipsTestTheKeyLevel : ((State.reset.setV 2 15).getV 2).toNat = (15 : KeyId).val ∧
    15 < ((State.reset.setV 2 16).getV 2).toNat := by decide

theorem witness_KeyWaitLatchesHoldsDelivers : (State.reset.kwState = .waiting ∧ ∀ k, State.reset.key k = false) ∧
    ((State.reset.keySet 15 true).kwState = .waiting ∧ (State.reset.keySet 15 true).key 15 = true ∧
      ∀ j : KeyId, j < 15 → (State.reset.keySet 15 true).key j = false) ∧
    ((waitingFor7 (State.reset.keySet 7 true)).kwState = .keyDown ∧ (waitingFor7 (State.reset.keySet 7 true)).key 7 = true) ∧
    (waitingFor7 State.reset).kwState = .keyDown ∧ (waitingFor7 State.reset).key 7 = false := by decide

theorem witness_HeldKeyStallsUntilReleased : Executes ((waitingFor7 (placed 0xF30A)).keySet 7 true) (.ldVxK 3) ∧
    ((waitingFor7 (placed 0xF30A)).keySet 7 true).kwState = .keyDown ∧
    ((waitingFor7 (placed 0xF30A)).keySet 7 true).key 7 = true ∧
    ∀ op ∈ [Operation.step 1, .tick, .keySet 3 true, .fbRead], LeavesKey 7 op :=
  ⟨⟨by decide, by decide⟩, by decide, by decide, by simp [LeavesKey]⟩

theorem witness_SelfJumpIsQuiescent : Executes (placed 0x1200) (.jp 0x200) ∧
    (placed 0x1200).pc.toNat = (0x200 : Addr12).toNat := ⟨⟨by decide, by decide⟩, by decide⟩

theorem witness_RandomByteReachesRndAlone : ∀ x kk, ¬Executes (placed 0x1200) (.rnd x kk) := by
  rintro x kk ⟨-, h⟩
  rw [show decode (opcodeAt (placed 0x1200)) = .instr (.jp 0x200) by decide] at h
  cases h

theorem witness_SoundTimerIsNeverRead : ∀ x, Instr.addReg 1 2 ≠ .ldStVx x := nofun

theorem witness_StaleStackSlotsAreUnobservable :
    SameButStaleSlots (placed 0x00EE) { placed 0x00EE with stack := .replicate 12 0xFFFF } ∧
    (∃ t, step (placed 0x00EE) = .next t) ∧
    SameButStaleSlots { State.reset with pc := 0xFFF } { State.reset with pc := 0xFFF, stack := .replicate 12 0xFFFF } ∧
    step { State.reset with pc := 0xFFF } = .fault .addrOutOfRange :=
  ⟨⟨rfl, by decide⟩, ⟨_, rfl⟩, ⟨rfl, by decide⟩, rfl⟩

end Sys2Proof.Tests
end

/-! The jump and the compares: each is one write of PC, so one lemma about such a write gives their frames
(spec 41_control_flow.md R143, R147 to R150). -/

namespace Sys2Proof

open Sys2Proof.Machine

/-- An instruction that is one write of PC completes with that PC and changes nothing else. -/
theorem completes_of_exec_eq_setPc {i : Instr} {s : State} {w : Word} (h : exec i s = .next (s.setPc w)) :
    ∃ t, exec i s = .next t ∧ t.pc = w ∧ KeepsAllBut (· = .pc) s t :=
  ⟨s.setPc w, h, setPc_pc s w, keepsAllBut_setPc s w⟩

theorem zextAddr_toNat (addr : Addr12) : (zextAddr addr).toNat = addr.toNat :=
  BitVec.toNat_setWidth_of_le (by decide)

theorem skipIf_beq (s : State) (a b : Byte) : s.skipIf (a == b) = s.setPc (if a = b then s.pc + 2 else s.pc) := by
  simp only [skipIf_eq, beq_iff_eq]

theorem skipIf_bne (s : State) (a b : Byte) : s.skipIf (a != b) = s.setPc (if a = b then s.pc else s.pc + 2) := by
  simp only [skipIf_eq, bne_iff_ne, ite_not]

theorem exec_jp (addr : Addr12) (s : State) : exec (.jp addr) s = .next (s.setPc (zextAddr addr)) := rfl

theorem exec_seImm (x : Reg) (kk : Byte) (s : State) :
    exec (.seImm x kk) s = .next (s.setPc (if s.getV x = kk then s.pc + 2 else s.pc)) :=
  congrArg Host.Outcome.next (skipIf_beq s (s.getV x) kk)

theorem exec_sneImm (x : Reg) (kk : Byte) (s : State) :
    exec (.sneImm x kk) s = .next (s.setPc (if s.getV x = kk then s.pc else s.pc + 2)) :=
  congrArg Host.Outcome.next (skipIf_bne s (s.getV x) kk)

theorem exec_seReg (x y : Reg) (s : State) :
    exec (.seReg x y) s = .next (s.setPc (if s.getV x = s.getV y then s.pc + 2 else s.pc)) :=
  congrArg Host.Outcome.next (skipIf_beq s (s.getV x) (s.getV y))

theorem exec_sneReg (x y : Reg) (n : Nibble) (s : State) :
    exec (.sneReg x y n) s = .next (s.setPc (if s.getV x = s.getV y then s.pc else s.pc + 2)) :=
  congrArg Host.Outcome.next (skipIf_bne s (s.getV x) (s.getV y))

/-- Settles O26: JP is one write of PC, and zero-extending a 12-bit address keeps its number. -/
theorem jpSetsPcToAddr : Obligations.JpSetsPcToAddr := by
  intro s addr
  obtain ⟨t, ht, hpc, hframe⟩ := completes_of_exec_eq_setPc (exec_jp addr s)
  exact ⟨t, ht, by rw [hpc, zextAddr_toNat], hframe⟩

/-- Settles O28: both byte compares are one write of PC. -/
theorem compareWithByteSkips : Obligations.CompareWithByteSkips := fun s x kk =>
  ⟨completes_of_exec_eq_setPc (exec_seImm x kk s), completes_of_exec_eq_setPc (exec_sneImm x kk s)⟩

/-- Settles O29: both register compares are one write of PC, whatever the unexamined n of the second is. -/
theorem compareRegistersSkips : Obligations.CompareRegistersSkips := fun s x y n =>
  ⟨completes_of_exec_eq_setPc (exec_seReg x y s), completes_of_exec_eq_setPc (exec_sneReg x y n s)⟩

end Sys2Proof

/-! Loads and 8-bit arithmetic: each is one write of V[x], or one write of V[x] and then VF, so one lemma about each kind of
write gives their frames (spec 42_load_alu.md R161 to R163, R167, R168, R170; 45_keypad_timers.md R240). -/

namespace Sys2Proof

open Sys2Proof.Machine

/-- An instruction that is one write of V[x] completes with that byte there and changes nothing else. -/
theorem completes_of_exec_eq_setV {i : Instr} {s : State} {x : Reg} {b : Byte} (h : exec i s = .next (s.setV x b)) :
    ∃ t, exec i s = .next t ∧ t.getV x = b ∧ KeepsAllBut (· = .v x) s t :=
  ⟨s.setV x b, h, getV_setV_same s x b, keepsAllBut_setV s x b⟩

@[simp] theorem getV_setVThenFlag_vf (s : State) (x : Reg) (b c : Byte) : (s.setVThenFlag x b c).getV .vf = c := by
  rw [getV_setVThenFlag, if_pos rfl]

theorem getV_setVThenFlag_result (s : State) {x : Reg} (b c : Byte) (h : x ≠ .vf) :
    (s.setVThenFlag x b c).getV x = b := by
  rw [getV_setVThenFlag, if_neg h, if_pos rfl]

/-- An instruction that writes a result to V[x] and then a flag to VF completes with that flag, and with that result unless
x = 0xF, where the flag, the last write, stays (R21, R160). -/
theorem completes_of_exec_eq_setVThenFlag {i : Instr} {s : State} {x : Reg} {b c : Byte}
    (h : exec i s = .next (s.setVThenFlag x b c)) :
    ∃ t, exec i s = .next t ∧ (x ≠ .vf → t.getV x = b) ∧ t.getV .vf = c ∧
      KeepsAllBut (fun p => p = .v x ∨ p = .v .vf) s t :=
  ⟨s.setVThenFlag x b c, h, getV_setVThenFlag_result s b c, getV_setVThenFlag_vf s x b c, keepsAllBut_setVThenFlag s x b c⟩

theorem exec_ldImm (x : Reg) (kk : Byte) (s : State) : exec (.ldImm x kk) s = .next (s.setV x kk) := rfl

theorem exec_addImm (x : Reg) (kk : Byte) (s : State) : exec (.addImm x kk) s = .next (s.setV x (s.getV x + kk)) := rfl

theorem exec_ldReg (x y : Reg) (s : State) : exec (.ldReg x y) s = .next (s.setV x (s.getV y)) := rfl

theorem exec_ldVxDt (x : Reg) (s : State) : exec (.ldVxDt x) s = .next (s.setV x s.dt) := rfl

theorem exec_addReg (x y : Reg) (s : State) :
    exec (.addReg x y) s = .next (s.setVThenFlag x (s.getV x + s.getV y) (carryFlag (s.getV x) (s.getV y))) := rfl

theorem exec_subReg (x y : Reg) (s : State) :
    exec (.subReg x y) s = .next (s.setVThenFlag x (s.getV x - s.getV y) (notBorrowFlag (s.getV x) (s.getV y))) := rfl

theorem exec_subn (x y : Reg) (s : State) :
    exec (.subn x y) s = .next (s.setVThenFlag x (s.getV y - s.getV x) (notBorrowFlag (s.getV y) (s.getV x))) := rfl

theorem flagByte_decide (p : Prop) [Decidable p] : flagByte (decide p) = if p then 1 else 0 := by
  simp only [flagByte, decide_eq_true_eq]

theorem carryFlag_eq (a b : Byte) : carryFlag a b = if a.toNat + b.toNat > 255 then 1 else 0 :=
  flagByte_decide _

theorem notBorrowFlag_eq (a b : Byte) : notBorrowFlag a b = if a.toNat ≥ b.toNat then 1 else 0 :=
  flagByte_decide _

/-- The difference of two bytes is the difference of their numbers modulo 256, in exact integers (R9). -/
theorem natCast_toNat_sub_byte (a b : Byte) : ((a - b).toNat : Int) = (a.toNat - b.toNat : Int) % 256 := by
  have hb : b.toNat < 256 := b.isLt
  rw [BitVec.toNat_sub]
  omega

/-- SUB and SUBN are one computation, on the operands in one order or the other. -/
theorem completes_of_exec_eq_subtraction {i : Instr} {s : State} {x : Reg} {a b : Byte}
    (h : exec i s = .next (s.setVThenFlag x (a - b) (notBorrowFlag a b))) :
    ∃ t, exec i s = .next t ∧ (x ≠ .vf → ((t.getV x).toNat : Int) = (a.toNat - b.toNat : Int) % 256) ∧
      t.getV .vf = (if a.toNat ≥ b.toNat then 1 else 0) ∧ KeepsAllBut (fun p => p = .v x ∨ p = .v .vf) s t := by
  obtain ⟨t, ht, hresult, hflag, hframe⟩ := completes_of_exec_eq_setVThenFlag h
  refine ⟨t, ht, fun hx => ?_, ?_, hframe⟩
  · rw [hresult hx, natCast_toNat_sub_byte]
  · rw [hflag, notBorrowFlag_eq]

/-- Settles O35: ADD Vx, Vy is a write of the sum and then of the carry. -/
theorem addRegistersSetsCarry : Obligations.AddRegistersSetsCarry := by
  intro s x y
  obtain ⟨t, ht, hsum, hcarry, hframe⟩ := completes_of_exec_eq_setVThenFlag (exec_addReg x y s)
  refine ⟨t, ht, fun hx => ?_, ?_, hframe⟩
  · rw [hsum hx, BitVec.toNat_add]
  · rw [hcarry, carryFlag_eq]

/-- Settles O36: SUB takes V[x] - V[y], SUBN takes V[y] - V[x]. -/
theorem subtractionsSetNotBorrow : Obligations.SubtractionsSetNotBorrow := fun s x y =>
  ⟨completes_of_exec_eq_subtraction (exec_subReg x y s), completes_of_exec_eq_subtraction (exec_subn x y s)⟩

/-- Settles O32: the three loads are one write of V[x], for every x. -/
theorem loadsWriteVxAlone : Obligations.LoadsWriteVxAlone := fun s x y kk =>
  ⟨completes_of_exec_eq_setV (exec_ldImm x kk s), completes_of_exec_eq_setV (exec_ldReg x y s),
    completes_of_exec_eq_setV (exec_ldVxDt x s)⟩

/-- Settles O33: ADD Vx, kk is one write of V[x], and adding bytes wraps at 256. -/
theorem addByteWrapsWithoutFlag : Obligations.AddByteWrapsWithoutFlag := by
  intro s x kk
  obtain ⟨t, ht, hsum, hframe⟩ := completes_of_exec_eq_setV (exec_addImm x kk s)
  exact ⟨t, ht, by rw [hsum, BitVec.toNat_add], hframe⟩

end Sys2Proof

/-! The index register and the font: LD I and LD F are one write of I, and LOAD puts the font's glyphs where LD F points
(spec 43_index_memory.md R191, R194; 70_reset_and_hazards.md R291). -/

namespace Sys2Proof

open Sys2Proof.Machine

theorem keepsAllBut_setI (s : State) (w : Word) : KeepsAllBut (· = .i) s (s.setI w) := by
  intro p hp
  cases p with
  | i => exact absurd rfl hp
  | _ => rfl

/-- An instruction that is one write of I completes with that word there and changes nothing else. -/
theorem completes_of_exec_eq_setI {i : Instr} {s : State} {w : Word} (h : exec i s = .next (s.setI w)) :
    ∃ t, exec i s = .next t ∧ t.i = w ∧ KeepsAllBut (· = .i) s t :=
  ⟨s.setI w, h, setI_i s w, keepsAllBut_setI s w⟩

theorem exec_ldI (addr : Addr12) (s : State) : exec (.ldI addr) s = .next (s.setI (zextAddr addr)) := rfl

theorem exec_ldF (x : Reg) (s : State) : exec (.ldF x) s = .next (s.setI (glyphAddr (s.getV x))) := rfl

/-- The mask 0x0F is the remainder modulo 16, and five times it is far below 65536. -/
theorem glyphAddr_toNat (b : Byte) : (glyphAddr b).toNat = b.toNat % 16 * 5 := by
  have hmask : (b &&& 0x0F).toNat = b.toNat % 16 := by
    rw [BitVec.toNat_and]
    exact Nat.and_two_pow_sub_one_eq_mod b.toNat 4
  rw [glyphAddr, BitVec.toNat_ofNat, hmask]
  omega

/-- When a LOAD of bytes succeeds, and the state it then leaves (R291, R292). -/
theorem load_some_eq_ok_iff (font : Font) (rom : List Byte) (s : State) :
    State.load font (some rom) = .ok s ↔
      0 < rom.length ∧ rom.length ≤ Config.romMax ∧ s = { State.reset with mem := loadedMemory font rom } := by
  by_cases hempty : rom.length = 0
  · simp [State.load, hempty]
  by_cases hbig : Config.romMax < rom.length
  · simp [State.load, hempty, hbig]
  · simp [State.load, hempty, hbig, Nat.pos_of_ne_zero hempty, Nat.le_of_not_lt hbig, eq_comm]

/-- The ROM stands above the font, so the font's bytes are what memory holds at 0x000 to 0x04F. -/
theorem read_loadedMemory_font (font : Font) (rom : List Byte) (a : Nat) (h : a < 80) :
    (loadedMemory font rom).read a = font[a] := by
  have hbelow : a < Config.progBase := Nat.lt_of_lt_of_le h (by decide)
  rw [loadedMemory, Memory.read_writeBytes_outside _ _ _ _ (.inl hbelow), Memory.read_writeBytes, if_pos a.zero_le]
  simp [h]

/-- Settles O40: LD I is one write of I, and zero-extending a 12-bit address keeps its number. -/
theorem ldISetsIndex : Obligations.LdISetsIndex := by
  intro s addr
  obtain ⟨t, ht, hi, hframe⟩ := completes_of_exec_eq_setI (exec_ldI addr s)
  exact ⟨t, ht, by rw [hi, zextAddr_toNat], hframe⟩

/-- Settles O41: LD F is one write of I with the glyph's address, and after LOAD the font stands from address 0. -/
theorem ldFPointsAtTheGlyph : Obligations.LdFPointsAtTheGlyph := by
  constructor
  · intro s x
    obtain ⟨t, ht, hi, hframe⟩ := completes_of_exec_eq_setI (exec_ldF x s)
    exact ⟨t, ht, by rw [hi, glyphAddr_toNat], hframe⟩
  · intro font rom s hload d j
    obtain ⟨-, -, rfl⟩ := (load_some_eq_ok_iff font rom s).mp hload
    exact read_loadedMemory_font font rom (d.val * 5 + j.val) (by omega)

end Sys2Proof

/-! The timers: LD DT, Vx and LD ST, Vx are one write of their timer (spec 45_keypad_timers.md R241, R242). -/

namespace Sys2Proof

open Sys2Proof.Machine

theorem keepsAllBut_setDt (s : State) (b : Byte) : KeepsAllBut (· = .dt) s (s.setDt b) := by
  intro p hp
  cases p with
  | dt => exact absurd rfl hp
  | _ => rfl

theorem keepsAllBut_setSt (s : State) (b : Byte) : KeepsAllBut (· = .st) s (s.setSt b) := by
  intro p hp
  cases p with
  | st => exact absurd rfl hp
  | _ => rfl

theorem exec_ldDtVx (x : Reg) (s : State) : exec (.ldDtVx x) s = .next (s.setDt (s.getV x)) := rfl

theorem exec_ldStVx (x : Reg) (s : State) : exec (.ldStVx x) s = .next (s.setSt (s.getV x)) := rfl

/-- Settles O53: each timer load is one write of its timer, with V[x] read before it. -/
theorem timerLoadsWriteTheTimerAlone : Obligations.TimerLoadsWriteTheTimerAlone := fun s x =>
  ⟨⟨s.setDt (s.getV x), exec_ldDtVx x s, setDt_dt s (s.getV x), keepsAllBut_setDt s (s.getV x)⟩,
    s.setSt (s.getV x), exec_ldStVx x s, setSt_st s (s.getV x), keepsAllBut_setSt s (s.getV x)⟩

end Sys2Proof

/-! Reports are precise: an instruction either leaves the report alone or does nothing but report, and a STEP begins with no
report, so the state after a reported condition is the state before it with PC moved past the opcode (spec 60_exceptions.md
R250, R262). -/

namespace Sys2Proof

open Sys2Proof.Machine

/-- The state in which the instruction of a STEP starts to execute: the random byte is drawn, PC is past the opcode, and there
is no report yet (R13, R120, R252). -/
def startOf (s : State) : State :=
  State.beginStep { s with rnd := Config.rndInput s.draws, draws := s.draws + 1 }

@[simp] theorem startOf_pc (s : State) : (startOf s).pc = s.pc + 2 := rfl

@[simp] theorem startOf_report (s : State) : (startOf s).report = .none := rfl

/-- What a completed STEP has done: it fetched, and executed the decoded instruction or reported an undefined opcode
(R120, R121, R125). -/
theorem step_next_cases {s t : State} (h : step s = .next t) :
    CanFetch s ∧
      ((∃ i, decode (opcodeAt s) = .instr i ∧ exec i (startOf s) = .next t) ∨
        (∃ row, decode (opcodeAt s) = .undefined row) ∧ t = (startOf s).raise .undefinedOpcode (opcodeAt s)) := by
  have hcycle := (cycle_eq { s with rnd := Config.rndInput s.draws, draws := s.draws + 1 }).symm.trans h
  split at hcycle
  · next hfetch =>
    refine ⟨hfetch, ?_⟩
    split at hcycle
    · next i hi => exact .inl ⟨i, hi, hcycle⟩
    · next row hrow =>
      cases hcycle
      exact .inr ⟨⟨row, hrow⟩, rfl⟩
  · cases hcycle

theorem keepsAllBut_startOf (s : State) :
    KeepsAllBut (fun p => p = .pc ∨ p = .report ∨ p = .rnd ∨ p = .draws) s (startOf s) := by
  intro p hp
  cases p with
  | pc | report | rnd | draws => simp at hp
  | _ => rfl

theorem keepsAllBut_raise (s : State) (c : Condition) (w : Word) : KeepsAllBut (· = .report) s (s.raise c w) := by
  intro p hp
  cases p with
  | report => exact absurd rfl hp
  | _ => rfl

@[simp] theorem skipIf_report (s : State) (c : Bool) : (s.skipIf c).report = s.report := by
  rw [skipIf_eq, setPc_report]

@[simp] theorem setVs_report (s : State) (k : Nat) (vs : List Byte) : (s.setVs k vs).report = s.report := by
  rw [setVs_eq]

/-- RET pops and jumps, or reports and does nothing else (R141). -/
theorem execRet_next_cases {x : Nibble} {s t : State} (h : execRet x s = .next t) :
    (∃ a u, s.pop = some (a, u) ∧ t = u.setPc a) ∨ s.pop = none ∧ t = s.raise .stackUnderflow (encode (.ret x)) := by
  unfold execRet at h
  split at h
  · next a u hpop =>
    cases h
    exact .inl ⟨a, u, hpop, rfl⟩
  · next hpop =>
    cases h
    exact .inr ⟨hpop, rfl⟩

/-- CALL pushes and jumps, or reports and does nothing else (R145). -/
theorem execCall_next_cases {addr : Addr12} {s t : State} (h : execCall addr s = .next t) :
    (∃ u, s.push s.pc = some u ∧ t = u.setPc (zextAddr addr)) ∨
    s.push s.pc = none ∧ t = s.raise .stackOverflow (encode (.call addr)) := by
  unfold execCall at h
  split at h
  · next u hpush =>
    cases h
    exact .inl ⟨u, hpush, rfl⟩
  · next hpush =>
    cases h
    exact .inr ⟨hpush, rfl⟩

theorem push_report {s u : State} {a : Word} (h : s.push a = some u) : u.report = s.report := by
  obtain ⟨-, rfl⟩ := (push_eq_some s u a).mp h
  rfl

theorem pop_report {s u : State} {a : Word} (h : s.pop = some (a, u)) : u.report = s.report := by
  obtain ⟨-, -, rfl⟩ := (pop_eq_some s u a).mp h
  rfl

theorem execLdVxK_report {x : Reg} {s t : State} (h : execLdVxK x s = .next t) : t.report = s.report := by
  unfold execLdVxK at h
  split at h
  · split at h <;> cases h <;> rfl
  · split at h <;> cases h <;> rfl

/-- What an instruction guarded by a range check leaves when it completes: the state its body names (R190). -/
theorem eq_of_guarded_next {c : Prop} [Decidable c] {f : Fault} {u t : State}
    (h : (if c then .next u else .fault f : Host.Outcome State Fault Refusal) = .next t) : u = t := by
  split at h
  · exact Host.Outcome.next.inj h
  · cases h

/-- An instruction that completes leaves the report as it was, or does nothing but raise a condition. -/
theorem exec_next_keeps_report_or_raises {i : Instr} {s t : State} (h : exec i s = .next t) :
    t.report = s.report ∨ ∃ c w, t = s.raise c w := by
  cases i with
  | ret x =>
    obtain ⟨a, u, hpop, rfl⟩ | ⟨-, rfl⟩ := execRet_next_cases h
    · exact .inl ((setPc_report u a).trans (pop_report hpop))
    · exact .inr ⟨_, _, rfl⟩
  | call addr =>
    obtain ⟨u, hpush, rfl⟩ | ⟨-, rfl⟩ := execCall_next_cases h
    · exact .inl ((setPc_report u _).trans (push_report hpush))
    · exact .inr ⟨_, _, rfl⟩
  | seImm | sneImm | seReg | sneReg =>
    cases h
    exact .inl (skipIf_report _ _)
  | skp | sknp =>
    simp only [exec, execSkp, execSknp] at h
    split at h
    · cases h
      exact .inl (skipIf_report _ _)
    · cases h
  | ldVxK => exact .inl (execLdVxK_report h)
  | drw | ldB | storeRegs =>
    cases eq_of_guarded_next h
    exact .inl rfl
  | loadRegs =>
    cases eq_of_guarded_next h
    exact .inl (setVs_report _ _ _)
  | _ =>
    cases h
    exact .inl rfl

/-- A STEP that reports a condition is its beginning and the raising of that condition. -/
theorem step_reporting_eq_raise {s t : State} (h : step s = .next t) (hcode : t.report.code ≠ 0) :
    ∃ c w, t = (startOf s).raise c w := by
  obtain ⟨-, ⟨i, -, hexec⟩ | ⟨-, rfl⟩⟩ := step_next_cases h
  · obtain hkept | hraised := exec_next_keeps_report_or_raises hexec
    · rw [hkept, startOf_report] at hcode
      exact absurd rfl hcode
    · exact hraised
  · exact ⟨_, _, rfl⟩

/-- Settles O18: raising a condition after the beginning of a STEP writes the report alone, and the beginning moves PC by 2. -/
theorem reportedStepsOnlyAdvancePc : Obligations.ReportedStepsOnlyAdvancePc := by
  intro s t h hcode
  obtain ⟨c, w, rfl⟩ := step_reporting_eq_raise h hcode
  refine ⟨by rw [raise_pc, startOf_pc], (keepsAllBut_startOf s).trans ?_⟩
  exact (keepsAllBut_raise _ c w).mono fun _ hreport => .inr (.inl hreport)

end Sys2Proof

/-! LOAD: memory after a successful LOAD, region by region, and when LOAD fails (spec 70_reset_and_hazards.md R291, R292). -/

namespace Sys2Proof

open Sys2Proof.Machine

/-- Above the font's 80 bytes memory reads zero until a byte is stored there (R40, R291). -/
theorem read_nil_above_font (a : Nat) (h : 80 ≤ a) : Memory.read [] a = 0 := by
  have habove : ¬a < Config.fontLen := Nat.not_lt_of_le h
  rw [Memory.read, Config.resetByte, dif_neg habove]

/-- Byte i of the ROM stands at 0x200 + i, whatever the font (R291). -/
theorem read_loadedMemory_rom (font : Font) (rom : List Byte) (i : Nat) (h : i < rom.length) :
    (loadedMemory font rom).read (0x200 + i) = rom[i] := by
  rw [loadedMemory, Memory.read_writeBytes, if_pos (Nat.le_add_right _ _), Nat.add_sub_cancel_left]
  simp [h]

/-- Memory holds zero between the font and the ROM, and above the ROM (R291). -/
theorem read_loadedMemory_elsewhere (font : Font) (rom : List Byte) (a : Nat) (hfont : 80 ≤ a)
    (hrom : a < 0x200 ∨ 0x200 + rom.length ≤ a) : (loadedMemory font rom).read a = 0 := by
  have habove : 0 + font.toList.length ≤ a := by simpa using hfont
  rw [loadedMemory, Memory.read_writeBytes_outside _ _ _ _ hrom,
    Memory.read_writeBytes_outside _ _ _ _ (.inr habove), read_nil_above_font a hfont]

/-- As an operation of the host LOAD ends in a LoadError exactly when it yields no state (R253). -/
theorem operate_load_faults_iff (font : Font) (rom : Option (List Byte)) (s : State) :
    (∃ e, operate (.load font rom) s = .fault (.loadError e)) ↔ ¬∃ t, State.load font rom = .ok t := by
  cases hload : State.load font rom with
  | ok t => simp [operate, hload]
  | error e => simp [operate, hload]

/-- LOAD of bytes yields a state exactly when there are 1 to 3584 of them (R292). -/
theorem load_some_succeeds_iff (font : Font) (rom : List Byte) :
    (∃ t, State.load font (some rom) = .ok t) ↔ 0 < rom.length ∧ rom.length ≤ 3584 := by
  constructor
  · rintro ⟨t, ht⟩
    obtain ⟨hpos, hmax, -⟩ := (load_some_eq_ok_iff font rom t).mp ht
    exact ⟨hpos, hmax⟩
  · rintro ⟨hpos, hmax⟩
    exact ⟨_, (load_some_eq_ok_iff font rom _).mpr ⟨hpos, hmax, rfl⟩⟩

/-- Settles O2: the font is written to empty memory and the ROM above it, so each region reads what was last stored there. -/
theorem loadInstallsFontAndRom : Obligations.LoadInstallsFontAndRom := by
  intro font rom hpos hmax
  refine ⟨_, (load_some_eq_ok_iff font rom _).mpr ⟨hpos, hmax, rfl⟩, read_loadedMemory_font font rom, ?_,
    read_loadedMemory_rom font rom, ?_⟩
  · intro a hlow hhigh
    exact read_loadedMemory_elsewhere font rom a hlow (.inl (Nat.lt_succ_of_le hhigh))
  · intro a hlow _
    exact read_loadedMemory_elsewhere font rom a (by omega) (.inr hlow)

/-- Settles O4: LOAD yields a state exactly for a ROM of 1 to 3584 bytes, and fails on every other. -/
theorem loadFailsExactlyOnABadRom : Obligations.LoadFailsExactlyOnABadRom := by
  intro font rom s
  rw [operate_load_faults_iff]
  cases rom with
  | none => simp [State.load]
  | some bytes =>
    rw [load_some_succeeds_iff]
    simp only [reduceCtorEq, Option.some.injEq, exists_eq_left', false_or]
    omega

end Sys2Proof

/-! Encoding: an instruction and its word determine each other, and the opcode table and the list of undefined words describe the
decoder exactly (spec 30_encoding.md R90 to R100). -/

namespace Sys2Proof

/-! ### The fields of a word of each format -/

@[simp] theorem opField_wordOfNibbles (op x y n : Nibble) : opField (wordOfNibbles op x y n) = op.toFin :=
  (fields_wordOfNibbles op x y n).1

@[simp] theorem xField_wordOfNibbles (op x y n : Nibble) : xField (wordOfNibbles op x y n) = x.toFin :=
  (fields_wordOfNibbles op x y n).2.1

@[simp] theorem yField_wordOfNibbles (op x y n : Nibble) : yField (wordOfNibbles op x y n) = y.toFin :=
  (fields_wordOfNibbles op x y n).2.2.1

@[simp] theorem nField_wordOfNibbles (op x y n : Nibble) : nField (wordOfNibbles op x y n) = n.toFin :=
  (fields_wordOfNibbles op x y n).2.2.2

@[simp] theorem opField_wordXyn (op : Nibble) (x y : Reg) (n : Nibble) : opField (wordXyn op x y n) = op.toFin :=
  (fields_wordXyn op x y n).1

@[simp] theorem xField_wordXyn (op : Nibble) (x y : Reg) (n : Nibble) : xField (wordXyn op x y n) = x :=
  (fields_wordXyn op x y n).2.1

@[simp] theorem yField_wordXyn (op : Nibble) (x y : Reg) (n : Nibble) : yField (wordXyn op x y n) = y :=
  (fields_wordXyn op x y n).2.2.1

@[simp] theorem nField_wordXyn (op : Nibble) (x y : Reg) (n : Nibble) : nField (wordXyn op x y n) = n.toFin :=
  (fields_wordXyn op x y n).2.2.2

@[simp] theorem opField_wordXkk (op : Nibble) (x : Reg) (kk : Byte) : opField (wordXkk op x kk) = op.toFin :=
  (fields_wordXkk op x kk).1

@[simp] theorem xField_wordXkk (op : Nibble) (x : Reg) (kk : Byte) : xField (wordXkk op x kk) = x :=
  (fields_wordXkk op x kk).2.1

@[simp] theorem kkField_wordXkk (op : Nibble) (x : Reg) (kk : Byte) : kkField (wordXkk op x kk) = kk :=
  (fields_wordXkk op x kk).2.2

@[simp] theorem opField_wordNnn (op : Nibble) (a : Addr12) : opField (wordNnn op a) = op.toFin := (fields_wordNnn op a).1

@[simp] theorem addrField_wordNnn (op : Nibble) (a : Addr12) : addrField (wordNnn op a) = a := (fields_wordNnn op a).2

/-! ### Decoding an encoded instruction -/

/-- The word of CLS or RET is one of the format XS, with kk = E0 or EE. -/
theorem wordOfNibbles_eq_wordXkk (op x : Nibble) (kk : Byte) :
    wordOfNibbles op x (kk.extractLsb' 4 4) (kk.extractLsb' 0 4) = wordXkk op x.toFin kk := by
  rw [wordXkk_eq_nibbles, nibbleOf_toFin]

theorem encode_cls (x : Nibble) : encode (.cls x) = wordXkk 0x0 x.toFin 0xE0 := wordOfNibbles_eq_wordXkk 0x0 x 0xE0

theorem encode_ret (x : Nibble) : encode (.ret x) = wordXkk 0x0 x.toFin 0xEE := wordOfNibbles_eq_wordXkk 0x0 x 0xEE

/-- The word of an instruction decodes to it: `decode` reads back the op, the sub-key and the operands that `encode` put into
the word's fields. -/
theorem decode_encode (i : Instr) : decode (encode i) = .instr i := by
  cases i with
  | cls x | ret x =>
    simp only [encode_cls, encode_ret, decode, decodeOp0, opField_wordXkk, xField_wordXkk, kkField_wordXkk]
    rfl
  | jp | call | ldI | jpV0 =>
    simp only [encode, decode, opField_wordNnn, addrField_wordNnn]
    rfl
  | seImm | sneImm | ldImm | addImm | rnd =>
    simp only [encode, decode, opField_wordXkk, xField_wordXkk, kkField_wordXkk]
    rfl
  | skp | sknp | ldVxDt | ldVxK | ldDtVx | ldStVx | addI | ldF | ldB | storeRegs | loadRegs =>
    simp only [encode, decode, decodeOpE, decodeOpF, opField_wordXkk, xField_wordXkk, kkField_wordXkk]
    rfl
  | shr | shl =>
    simp only [encode, decode, decodeOp8, opField_wordOfNibbles, xField_wordOfNibbles, yField_wordOfNibbles,
      nField_wordOfNibbles]
    rfl
  | _ =>
    simp only [encode, decode, decodeOp5, decodeOp8, opField_wordXyn, xField_wordXyn, yField_wordXyn, nField_wordXyn]
    rfl

/-- Settles O5: the word of an instruction decodes to it, and its two bytes are that word again. -/
theorem decodeInvertsEncode : Obligations.DecodeInvertsEncode := by
  intro i
  refine ⟨decode_encode i, fun rest => ?_⟩
  rw [decodeBytes, wordOfBytes_high_low, decode_encode]

/-! ### Encoding a decoded word -/

theorem opNibble_eq_iff (w : Word) (op : Nibble) : w.extractLsb' 12 4 = op ↔ opField w = op.toFin :=
  BitVec.toFin_inj.symm

theorem wordXkk_of_opField {w : Word} {op : Nibble} (hop : opField w = op.toFin) :
    wordXkk op (xField w) (kkField w) = w := by
  rw [← (opNibble_eq_iff w op).mpr hop, word_eq_xkk]

theorem wordNnn_of_opField {w : Word} {op : Nibble} (hop : opField w = op.toFin) : wordNnn op (addrField w) = w := by
  rw [← (opNibble_eq_iff w op).mpr hop, word_eq_nnn]

theorem wordXyn_of_opField {w : Word} {op : Nibble} (hop : opField w = op.toFin) :
    wordXyn op (xField w) (yField w) (nibbleOf (nField w)) = w := by
  rw [← (opNibble_eq_iff w op).mpr hop]
  exact word_eq_nibbles w

theorem wordXkk_of_fields {w : Word} {op : Nibble} {kk : Byte} (hop : opField w = op.toFin) (hkk : kkField w = kk) :
    wordXkk op (xField w) kk = w := by
  rw [← hkk, wordXkk_of_opField hop]

theorem wordXyn_of_fields {w : Word} {op n : Nibble} (hop : opField w = op.toFin) (hn : nField w = n.toFin) :
    wordXyn op (xField w) (yField w) n = w := by
  rw [← nibbleOf_toFin n, ← hn, wordXyn_of_opField hop]

theorem encode_of_decodeOp0 {w : Word} {i : Instr} (hop : opField w = 0x0) (h : decodeOp0 w = .instr i) :
    encode i = w := by
  unfold decodeOp0 at h
  split at h
  case h_3 => cases h
  all_goals
    cases h
    next hkk =>
      simp only [encode_cls, encode_ret]
      exact wordXkk_of_fields hop hkk

theorem encode_of_decodeOp5 {w : Word} {i : Instr} (hop : opField w = 0x5) (h : decodeOp5 w = .instr i) :
    encode i = w := by
  unfold decodeOp5 at h
  split at h
  case h_2 => cases h
  cases h
  next hn => exact wordXyn_of_fields hop hn

theorem encode_of_decodeOp8 {w : Word} {i : Instr} (hop : opField w = 0x8) (h : decodeOp8 w = .instr i) :
    encode i = w := by
  unfold decodeOp8 at h
  split at h
  case h_10 => cases h
  all_goals
    cases h
    next hn => exact wordXyn_of_fields hop hn

theorem encode_of_decodeOpE {w : Word} {i : Instr} (hop : opField w = 0xE) (h : decodeOpE w = .instr i) :
    encode i = w := by
  unfold decodeOpE at h
  split at h
  case h_3 => cases h
  all_goals
    cases h
    next hkk => exact wordXkk_of_fields hop hkk

theorem encode_of_decodeOpF {w : Word} {i : Instr} (hop : opField w = 0xF) (h : decodeOpF w = .instr i) :
    encode i = w := by
  unfold decodeOpF at h
  split at h
  case h_10 => cases h
  all_goals
    cases h
    next hkk => exact wordXkk_of_fields hop hkk

/-- Settles O6: the op and the sub-key that select an instruction are those of its word, and the operands are the other fields. -/
theorem encodeInvertsDecode : Obligations.EncodeInvertsDecode := by
  intro w i h
  unfold decode at h
  split at h
  case h_1 hop => exact encode_of_decodeOp0 hop h
  case h_6 hop => exact encode_of_decodeOp5 hop h
  case h_9 hop => exact encode_of_decodeOp8 hop h
  case h_15 hop => exact encode_of_decodeOpE hop h
  case h_16 hop => exact encode_of_decodeOpF hop h
  case h_17 hlt _ => omega
  case h_2 hop | h_3 hop | h_11 hop | h_12 hop =>
    cases h
    exact wordNnn_of_opField hop
  case h_10 hop | h_14 hop =>
    cases h
    exact wordXyn_of_opField hop
  all_goals
    cases h
    next hop => exact wordXkk_of_opField hop

theorem decode_eq_instr_iff (w : Word) (i : Instr) : decode w = .instr i ↔ encode i = w :=
  ⟨encodeInvertsDecode w i, fun h => h ▸ decode_encode i⟩

/-! ### The opcode table -/

/-- Every instruction's word is selected by the instruction's own row of R96. -/
theorem rowSelects_tableRow_encode (i : Instr) : rowSelects (tableRow i) (encode i) = true := by
  cases i with
  | cls x => exact Laws.TableRow.cls x
  | ret x => exact Laws.TableRow.ret x
  | jp addr => exact Laws.TableRow.jp addr
  | call addr => exact Laws.TableRow.call addr
  | seImm x kk => exact Laws.TableRow.seImm x kk
  | sneImm x kk => exact Laws.TableRow.sneImm x kk
  | seReg x y => exact Laws.TableRow.seReg x y
  | ldImm x kk => exact Laws.TableRow.ldImm x kk
  | addImm x kk => exact Laws.TableRow.addImm x kk
  | ldReg x y => exact Laws.TableRow.ldReg x y
  | orReg x y => exact Laws.TableRow.orReg x y
  | andReg x y => exact Laws.TableRow.andReg x y
  | xorReg x y => exact Laws.TableRow.xorReg x y
  | addReg x y => exact Laws.TableRow.addReg x y
  | subReg x y => exact Laws.TableRow.subReg x y
  | shr x y => exact Laws.TableRow.shr x y
  | subn x y => exact Laws.TableRow.subn x y
  | shl x y => exact Laws.TableRow.shl x y
  | sneReg x y n => exact Laws.TableRow.sneReg x y n
  | ldI addr => exact Laws.TableRow.ldI addr
  | jpV0 addr => exact Laws.TableRow.jpV0 addr
  | rnd x kk => exact Laws.TableRow.rnd x kk
  | drw x y n => exact Laws.TableRow.drw x y n
  | skp x => exact Laws.TableRow.skp x
  | sknp x => exact Laws.TableRow.sknp x
  | ldVxDt x => exact Laws.TableRow.ldVxDt x
  | ldVxK x => exact Laws.TableRow.ldVxK x
  | ldDtVx x => exact Laws.TableRow.ldDtVx x
  | ldStVx x => exact Laws.TableRow.ldStVx x
  | addI x => exact Laws.TableRow.addI x
  | ldF x => exact Laws.TableRow.ldF x
  | ldB x => exact Laws.TableRow.ldB x
  | storeRegs x => exact Laws.TableRow.storeRegs x
  | loadRegs x => exact Laws.TableRow.loadRegs x

theorem opField_and_mask {mask : Word} (hmask : mask.extractLsb' 12 4 = 0xF) (w : Word) :
    opField (w &&& mask) = opField w := by
  rw [opField, nibbleAt, BitVec.extractLsb'_and, hmask]
  exact congrArg BitVec.toFin BitVec.and_allOnes

theorem nField_and_mask {mask : Word} (hmask : mask.extractLsb' 0 4 = 0xF) (w : Word) :
    nField (w &&& mask) = nField w := by
  rw [nField, nibbleAt, BitVec.extractLsb'_and, hmask]
  exact congrArg BitVec.toFin BitVec.and_allOnes

theorem kkField_and_mask {mask : Word} (hmask : mask.extractLsb' 0 8 = 0xFF) (w : Word) :
    kkField (w &&& mask) = kkField w := by
  rw [kkField, BitVec.extractLsb'_and, hmask]
  exact BitVec.and_allOnes

theorem opField_of_F000 {w v : Word} {op : Nibble} (h : w &&& 0xF000 = v) (hop : opField v = op.toFin) :
    opField w = op.toFin := by
  rw [← hop, ← h, opField_and_mask (by decide)]

theorem wordXyn_of_F00F {w v : Word} {op n : Nibble} (h : w &&& 0xF00F = v)
    (hv : opField v = op.toFin ∧ nField v = n.toFin) : wordXyn op (xField w) (yField w) n = w := by
  subst h
  rw [opField_and_mask (by decide), nField_and_mask (by decide)] at hv
  exact wordXyn_of_fields hv.1 hv.2

theorem wordXkk_of_F0FF {w v : Word} {op : Nibble} {kk : Byte} (h : w &&& 0xF0FF = v)
    (hv : opField v = op.toFin ∧ kkField v = kk) : wordXkk op (xField w) kk = w := by
  subst h
  rw [opField_and_mask (by decide), kkField_and_mask (by decide)] at hv
  exact wordXkk_of_fields hv.1 hv.2

theorem rowSelects_iff (r : Nat) (w : Word) :
    rowSelects r w = true ↔
      1 ≤ r ∧ ∃ mask value, tableMaskMatch[r - 1]? = some (mask, value) ∧ w &&& mask = value := by
  unfold rowSelects
  split
  · next mask value hrow => simp [hrow, eq_comm (a := w &&& mask)]
  · next hrow => simp [hrow]

/-- A word selected by a row of R96 is the word of an instruction of that row, its operands read from the fields that the row's
mask leaves open. -/
theorem exists_encode_of_rowSelects {w : Word} {r : Nat} (hr : r ≤ 34) (h : rowSelects r w = true) :
    ∃ i, encode i = w ∧ tableRow i = r := by
  obtain ⟨hpos, mask, value, hrow, hw⟩ := (rowSelects_iff r w).mp h
  interval_cases r <;> cases hrow
  · exact ⟨.cls (nibbleOf (xField w)), (encode_cls _).trans (wordXkk_of_F0FF hw (by decide)), rfl⟩
  · exact ⟨.ret (nibbleOf (xField w)), (encode_ret _).trans (wordXkk_of_F0FF hw (by decide)), rfl⟩
  · exact ⟨.jp (addrField w), wordNnn_of_opField (opField_of_F000 hw (by decide)), rfl⟩
  · exact ⟨.call (addrField w), wordNnn_of_opField (opField_of_F000 hw (by decide)), rfl⟩
  · exact ⟨.seImm (xField w) (kkField w), wordXkk_of_opField (opField_of_F000 hw (by decide)), rfl⟩
  · exact ⟨.sneImm (xField w) (kkField w), wordXkk_of_opField (opField_of_F000 hw (by decide)), rfl⟩
  · exact ⟨.seReg (xField w) (yField w), wordXyn_of_F00F hw (by decide), rfl⟩
  · exact ⟨.ldImm (xField w) (kkField w), wordXkk_of_opField (opField_of_F000 hw (by decide)), rfl⟩
  · exact ⟨.addImm (xField w) (kkField w), wordXkk_of_opField (opField_of_F000 hw (by decide)), rfl⟩
  · exact ⟨.ldReg (xField w) (yField w), wordXyn_of_F00F hw (by decide), rfl⟩
  · exact ⟨.orReg (xField w) (yField w), wordXyn_of_F00F hw (by decide), rfl⟩
  · exact ⟨.andReg (xField w) (yField w), wordXyn_of_F00F hw (by decide), rfl⟩
  · exact ⟨.xorReg (xField w) (yField w), wordXyn_of_F00F hw (by decide), rfl⟩
  · exact ⟨.addReg (xField w) (yField w), wordXyn_of_F00F hw (by decide), rfl⟩
  · exact ⟨.subReg (xField w) (yField w), wordXyn_of_F00F hw (by decide), rfl⟩
  · exact ⟨.shr (xField w) (nibbleOf (yField w)), wordXyn_of_F00F hw (by decide), rfl⟩
  · exact ⟨.subn (xField w) (yField w), wordXyn_of_F00F hw (by decide), rfl⟩
  · exact ⟨.shl (xField w) (nibbleOf (yField w)), wordXyn_of_F00F hw (by decide), rfl⟩
  · exact ⟨.sneReg (xField w) (yField w) (nibbleOf (nField w)), wordXyn_of_opField (opField_of_F000 hw (by decide)), rfl⟩
  · exact ⟨.ldI (addrField w), wordNnn_of_opField (opField_of_F000 hw (by decide)), rfl⟩
  · exact ⟨.jpV0 (addrField w), wordNnn_of_opField (opField_of_F000 hw (by decide)), rfl⟩
  · exact ⟨.rnd (xField w) (kkField w), wordXkk_of_opField (opField_of_F000 hw (by decide)), rfl⟩
  · exact ⟨.drw (xField w) (yField w) (nField w), wordXyn_of_opField (opField_of_F000 hw (by decide)), rfl⟩
  · exact ⟨.skp (xField w), wordXkk_of_F0FF hw (by decide), rfl⟩
  · exact ⟨.sknp (xField w), wordXkk_of_F0FF hw (by decide), rfl⟩
  · exact ⟨.ldVxDt (xField w), wordXkk_of_F0FF hw (by decide), rfl⟩
  · exact ⟨.ldVxK (xField w), wordXkk_of_F0FF hw (by decide), rfl⟩
  · exact ⟨.ldDtVx (xField w), wordXkk_of_F0FF hw (by decide), rfl⟩
  · exact ⟨.ldStVx (xField w), wordXkk_of_F0FF hw (by decide), rfl⟩
  · exact ⟨.addI (xField w), wordXkk_of_F0FF hw (by decide), rfl⟩
  · exact ⟨.ldF (xField w), wordXkk_of_F0FF hw (by decide), rfl⟩
  · exact ⟨.ldB (xField w), wordXkk_of_F0FF hw (by decide), rfl⟩
  · exact ⟨.storeRegs (xField w), wordXkk_of_F0FF hw (by decide), rfl⟩
  · exact ⟨.loadRegs (xField w), wordXkk_of_F0FF hw (by decide), rfl⟩

/-- Settles O7: decoding inverts encoding both ways, so it is enough that a row selects exactly the words of its instruction. -/
theorem opcodeTableRowsSelectTheirInstruction : Obligations.OpcodeTableRowsSelectTheirInstruction := by
  intro w r _ hr
  simp only [decode_eq_instr_iff]
  constructor
  · exact exists_encode_of_rowSelects hr
  · rintro ⟨i, rfl, rfl⟩
    exact rowSelects_tableRow_encode i

/-! ### The undefined words -/

theorem decodeOp0_undefined_iff (w : Word) :
    (∃ row, decodeOp0 w = .undefined row) ↔ kkField w ∉ [0xE0#8, 0xEE#8] := by
  unfold decodeOp0
  split <;> simp_all

theorem decodeOp5_undefined_iff (w : Word) : (∃ row, decodeOp5 w = .undefined row) ↔ nField w ≠ 0 := by
  unfold decodeOp5
  split <;> simp_all

theorem op8_digit_undefined_iff (n : Fin 16) :
    n ∉ [0x0, 0x1, 0x2, 0x3, 0x4, 0x5, 0x6, 0x7, 0xE] ↔ n ∈ [0x8, 0x9, 0xA, 0xB, 0xC, 0xD, 0xF] := by
  revert n
  decide

theorem decodeOp8_undefined_iff (w : Word) :
    (∃ row, decodeOp8 w = .undefined row) ↔ nField w ∈ [0x8, 0x9, 0xA, 0xB, 0xC, 0xD, 0xF] := by
  rw [← op8_digit_undefined_iff]
  unfold decodeOp8
  split <;> simp_all

theorem decodeOpE_undefined_iff (w : Word) :
    (∃ row, decodeOpE w = .undefined row) ↔ kkField w ∉ [0x9E#8, 0xA1#8] := by
  unfold decodeOpE
  split <;> simp_all

theorem decodeOpF_undefined_iff (w : Word) :
    (∃ row, decodeOpF w = .undefined row) ↔
      kkField w ∉ [0x07#8, 0x0A#8, 0x15#8, 0x18#8, 0x1E#8, 0x29#8, 0x33#8, 0x55#8, 0x65#8] := by
  unfold decodeOpF
  split <;> simp_all

theorem nNibble_eq_iff (w : Word) (n : Nibble) : w.extractLsb' 0 4 = n ↔ nField w = n.toFin :=
  BitVec.toFin_inj.symm

theorem kkBits_eq (w : Word) : w.extractLsb' 0 8 = kkField w := rfl

/-- Settles O8: with the op known, the list of R97 and the secondary dispatch say the same of the sub-key. -/
theorem undefinedWordsAreThoseListed : Obligations.UndefinedWordsAreThoseListed := by
  intro w
  unfold IsUndefinedWord decode
  simp only [opNibble_eq_iff]
  split
  case h_1 hop => simpa [hop, kkBits_eq] using decodeOp0_undefined_iff w
  case h_6 hop => simpa [hop, nNibble_eq_iff] using decodeOp5_undefined_iff w
  case h_9 hop => simpa [hop, nNibble_eq_iff] using decodeOp8_undefined_iff w
  case h_15 hop => simpa [hop, kkBits_eq] using decodeOpE_undefined_iff w
  case h_16 hop => simpa [hop, kkBits_eq] using decodeOpF_undefined_iff w
  case h_17 hlt _ => omega
  all_goals
    next hop => simp [hop]

/-- Settles O9: the fourteen words are decoded by evaluation. -/
theorem specExampleWordsDecode : Obligations.SpecExampleWordsDecode := by
  unfold Obligations.SpecExampleWordsDecode
  decide

end Sys2Proof

/-! The stack and JP V0: what a push and a pop do, and from that CALL, RET and a RET after a CALL (spec 41_control_flow.md R141,
R145, R152). -/

namespace Sys2Proof

open Sys2Proof.Machine

/-- A push fills the slot above SP, moves SP onto it, and changes nothing else. -/
theorem push_spec {s u : State} {a : Word} (h : s.push a = some u) :
    ∃ k : Fin 12, s.sp + 1 = k.val ∧ u.sp = s.sp + 1 ∧ u.stack[k] = a ∧
      KeepsAllBut (fun p => p = .sp ∨ p = .slot k) s u := by
  obtain ⟨hlt, rfl⟩ := (push_eq_some s u a).mp h
  refine ⟨⟨s.depth.val, hlt⟩, by simp [State.sp], by simp [State.sp], by simp, fun p hp => ?_⟩
  cases p with
  | sp => simp at hp
  | slot k =>
    have hne : s.depth.val ≠ k.val := fun e => hp (.inr (by simp [e]))
    simp [SameAt, hne]
  | _ => rfl

/-- A pop gives the slot that SP names, moves SP down, and changes nothing else. -/
theorem pop_spec {s u : State} {a : Word} (h : s.pop = some (a, u)) :
    ∃ k : Fin 12, s.sp = k.val ∧ a = s.stack[k] ∧ u.sp = s.sp - 1 ∧ KeepsAllBut (· = .sp) s u := by
  obtain ⟨hpos, rfl, rfl⟩ := (pop_eq_some s u a).mp h
  have hlt := s.depth.isLt
  refine ⟨⟨s.depth.val - 1, by omega⟩, ?_, rfl, ?_, fun p hp => ?_⟩
  · simp only [State.sp]
    omega
  · simp only [State.sp]
    omega
  · cases p with
    | sp => exact absurd rfl hp
    | _ => rfl

theorem exec_call_of_push {s u : State} (addr : Addr12) (h : s.push s.pc = some u) :
    exec (.call addr) s = .next (u.setPc (zextAddr addr)) := by
  simp only [exec, execCall, h]

theorem exec_call_of_full {s : State} (addr : Addr12) (h : s.push s.pc = none) :
    exec (.call addr) s = .next (s.raise .stackOverflow (encode (.call addr))) := by
  simp only [exec, execCall, h]

theorem exec_ret_of_pop {s u : State} {a : Word} (x : Nibble) (h : s.pop = some (a, u)) :
    exec (.ret x) s = .next (u.setPc a) := by
  simp only [exec, execRet, h]

theorem exec_ret_of_empty {s : State} (x : Nibble) (h : s.pop = none) :
    exec (.ret x) s = .next (s.raise .stackUnderflow (encode (.ret x))) := by
  simp only [exec, execRet, h]

theorem exec_jpV0 (addr : Addr12) (s : State) : exec (.jpV0 addr) s = .next (s.setPc (s.indexedTarget addr)) := rfl

/-- A byte and a 12-bit address are too small for their sum to wrap at 65536. -/
theorem indexedTarget_toNat (s : State) (addr : Addr12) :
    (s.indexedTarget addr).toNat = (s.getV 0).toNat + addr.toNat := by
  have hbase := (s.getV 0).isLt
  have haddr := addr.isLt
  have hzext : (zextByte (s.getV 0)).toNat = (s.getV 0).toNat := BitVec.toNat_setWidth_of_le (by decide)
  rw [State.indexedTarget, BitVec.toNat_add, hzext, zextAddr_toNat]
  omega

/-- Settles O25: RET is a pop and a jump, or on an empty stack the report alone. -/
theorem retPopsOrReportsUnderflow : Obligations.RetPopsOrReportsUnderflow := by
  intro s x
  cases hpop : s.pop with
  | none =>
    have hsp := (pop_eq_none s).mp hpop
    refine ⟨_, exec_ret_of_empty x hpop, fun k hk => ?_, fun _ => ⟨rfl, keepsAllBut_raise _ _ _⟩⟩
    omega
  | some popped =>
    obtain ⟨a, u⟩ := popped
    obtain ⟨k, hsp, ha, husp, hframe⟩ := pop_spec hpop
    refine ⟨_, exec_ret_of_pop x hpop, fun j hj => ?_, fun hempty => by omega⟩
    obtain rfl : j = k := Fin.ext (by omega)
    exact ⟨ha, husp, (hframe.mono fun _ => .inr).trans ((keepsAllBut_setPc u a).mono fun _ => .inl)⟩

/-- Settles O27: CALL is a push and a jump, or on a full stack the report alone. -/
theorem callPushesOrReportsOverflow : Obligations.CallPushesOrReportsOverflow := by
  intro s addr
  cases hpush : s.push s.pc with
  | none =>
    have hsp := (push_eq_none s s.pc).mp hpush
    refine ⟨_, exec_call_of_full addr hpush, fun k hk => ?_, fun _ => ⟨rfl, keepsAllBut_raise _ _ _⟩⟩
    omega
  | some u =>
    obtain ⟨k, hsp, husp, htop, hframe⟩ := push_spec hpush
    refine ⟨_, exec_call_of_push addr hpush, fun j hj => ?_, fun hfull => by omega⟩
    obtain rfl : j = k := Fin.ext (by omega)
    exact ⟨zextAddr_toNat addr, husp, htop,
      (hframe.mono fun _ => .inr).trans ((keepsAllBut_setPc u _).mono fun _ => .inl)⟩

/-- Settles O30: JP V0 is one write of PC, of a sum that does not wrap. -/
theorem jpV0AddsTheBase : Obligations.JpV0AddsTheBase := by
  intro s addr
  obtain ⟨t, ht, hpc, hframe⟩ := completes_of_exec_eq_setPc (exec_jpV0 addr s)
  exact ⟨t, ht, by rw [hpc, indexedTarget_toNat], hframe⟩

/-- Settles O31: the slot that the CALL filled is the one that SP names when the RET pops. -/
theorem retResumesAfterTheCall : Obligations.RetResumesAfterTheCall := by
  intro s addr hsp
  have hbounds := sp_bounds s
  obtain ⟨t, ht, hcall, -⟩ := callPushesOrReportsOverflow s addr
  obtain ⟨k, hk⟩ : ∃ k : Fin 12, s.sp + 1 = k.val := ⟨⟨(s.sp + 1).toNat, by omega⟩, by simp only; omega⟩
  obtain ⟨-, htsp, htop, -⟩ := hcall k hk
  refine ⟨t, ht, fun u x husp hustack => ?_⟩
  obtain ⟨r, hr, hret, -⟩ := retPopsOrReportsUnderflow u x
  obtain ⟨hpc, hrsp, -⟩ := hret k (by omega)
  exact ⟨r, hr, by rw [hpc, hustack, htop], by omega⟩

end Sys2Proof

/-! Bitwise operations, RND, shifts and ADD I: one write of V[x], or a write and then the flag (spec 42_load_alu.md R164 to R175,
43_index_memory.md R192). A STEP is brought to `exec` here, because RND's statement speaks of a STEP too. -/

namespace Sys2Proof

open Sys2Proof.Machine

/-- One cycle of a state whose opcode decodes is that instruction, executed at the post-fetch PC (R120). -/
theorem cycle_of_executes {s : State} {i : Instr} (h : Executes s i) : cycle s = exec i s.beginStep := by
  obtain ⟨hfetch, hdecode⟩ := h
  rw [cycle_eq, if_pos hfetch]
  simp only [hdecode]

/-- Settles O11: both STEPs are one cycle of the state with its random byte supplied. -/
theorem stepRunsTheDecodedInstruction : Obligations.StepRunsTheDecodedInstruction := fun s _ h =>
  ⟨fun r => cycle_of_executes (s := { s with rnd := r }) h,
    cycle_of_executes (s := { s with rnd := Config.rndInput s.draws, draws := s.draws + 1 }) h⟩

theorem exec_orReg (x y : Reg) (s : State) : exec (.orReg x y) s = .next (s.setV x (s.getV x ||| s.getV y)) := rfl

theorem exec_andReg (x y : Reg) (s : State) : exec (.andReg x y) s = .next (s.setV x (s.getV x &&& s.getV y)) := rfl

theorem exec_xorReg (x y : Reg) (s : State) : exec (.xorReg x y) s = .next (s.setV x (s.getV x ^^^ s.getV y)) := rfl

theorem exec_rnd (x : Reg) (kk : Byte) (s : State) : exec (.rnd x kk) s = .next (s.setV x (s.rnd &&& kk)) := rfl

theorem exec_shr (x : Reg) (y : Nibble) (s : State) :
    exec (.shr x y) s = .next (s.setVThenFlag x (s.getV x >>> 1) (shiftRightFlag (s.getV x))) := rfl

theorem exec_shl (x : Reg) (y : Nibble) (s : State) :
    exec (.shl x y) s = .next (s.setVThenFlag x (s.getV x <<< 1) (shiftLeftFlag (s.getV x))) := rfl

theorem exec_addI (x : Reg) (s : State) :
    exec (.addI x) s = .next ((s.setI (s.i + zextByte (s.getV x))).setV .vf (indexFlag s.i (s.getV x))) := rfl

/-- Settles O34: each of the three is one write of V[x], for every x. -/
theorem bitwiseOpsWriteVxAlone : Obligations.BitwiseOpsWriteVxAlone := by
  intro s x y
  obtain ⟨t, ht, hor, hframe⟩ := completes_of_exec_eq_setV (exec_orReg x y s)
  obtain ⟨t', ht', hand, hframe'⟩ := completes_of_exec_eq_setV (exec_andReg x y s)
  obtain ⟨t'', ht'', hxor, hframe''⟩ := completes_of_exec_eq_setV (exec_xorReg x y s)
  exact ⟨⟨t, ht, fun j => by rw [hor, BitVec.getLsbD_or], hframe⟩,
    ⟨t', ht', fun j => by rw [hand, BitVec.getLsbD_and], hframe'⟩,
    t'', ht'', fun j => by rw [hxor, BitVec.getLsbD_xor], hframe''⟩

/-- Settles O38: RND is one write of V[x], and the byte that a STEP draws is the one its instruction masks. -/
theorem rndMasksTheDraw : Obligations.RndMasksTheDraw := by
  constructor
  · intro s x kk
    obtain ⟨t, ht, hmasked, hframe⟩ := completes_of_exec_eq_setV (exec_rnd x kk s)
    refine ⟨t, ht, fun j => by rw [hmasked, BitVec.getLsbD_and], ?_, hframe⟩
    rw [hmasked, BitVec.toNat_and]
    exact Nat.and_le_right
  · intro s x kk h
    obtain ⟨-, hstep⟩ := stepRunsTheDecodedInstruction s _ h
    obtain ⟨t, ht, hmasked, -⟩ := completes_of_exec_eq_setV (exec_rnd x kk _)
    exact ⟨t, hstep.trans ht, hmasked⟩

theorem shiftRightFlag_eq (a : Byte) : shiftRightFlag a = if a.toNat % 2 = 1 then 1 else 0 := by
  rw [shiftRightFlag, BitVec.getLsbD, Nat.testBit_zero, flagByte_decide]

theorem shiftLeftFlag_eq (a : Byte) : shiftLeftFlag a = if a.toNat ≥ 128 then 1 else 0 := by
  have hmsb : a.getLsbD 7 = decide (128 ≤ a.toNat) := (BitVec.msb_eq_getLsbD_last a).symm.trans (BitVec.msb_eq_decide a)
  rw [shiftLeftFlag, hmsb, flagByte_decide]

theorem indexFlag_eq (i : Word) (b : Byte) : indexFlag i b = if i.toNat + b.toNat > 0xFFF then 1 else 0 :=
  flagByte_decide _

/-- Settles O37: both shifts write the shifted byte and then the bit shifted out. -/
theorem shiftsMoveVxByOne : Obligations.ShiftsMoveVxByOne := by
  intro s x y
  obtain ⟨t, ht, hresult, hflag, hframe⟩ := completes_of_exec_eq_setVThenFlag (exec_shr x y s)
  obtain ⟨t', ht', hresult', hflag', hframe'⟩ := completes_of_exec_eq_setVThenFlag (exec_shl x y s)
  refine ⟨⟨t, ht, fun hx => ?_, by rw [hflag, shiftRightFlag_eq], hframe⟩,
    t', ht', fun hx => ?_, by rw [hflag', shiftLeftFlag_eq], hframe'⟩
  · rw [hresult hx, BitVec.toNat_ushiftRight, Nat.shiftRight_eq_div_pow, pow_one]
  · rw [hresult' hx, BitVec.toNat_shiftLeft, Nat.shiftLeft_eq, pow_one]

/-- Settles O42: ADD I writes the sum to I and then the flag of the exact sum to VF. -/
theorem addIWrapsAndFlagsBeyondMemory : Obligations.AddIWrapsAndFlagsBeyondMemory := by
  intro s x
  have hzext : (zextByte (s.getV x)).toNat = (s.getV x).toNat := BitVec.toNat_setWidth_of_le (by decide)
  refine ⟨_, exec_addI x s, ?_, ?_, ?_⟩
  · rw [setV_i, setI_i, BitVec.toNat_add, hzext]
  · rw [getV_setV_same, indexFlag_eq]
  · exact ((keepsAllBut_setI s _).mono fun _ => .inl).trans ((keepsAllBut_setV _ .vf _).mono fun _ => .inr)

theorem flagByte_eq_zero_or_one (b : Bool) : flagByte b = 0 ∨ flagByte b = 1 := by
  cases b
  · exact .inl rfl
  · exact .inr rfl

/-- Settles O39: each of the seven writes a flag byte to VF last. -/
theorem flagSettersLeaveZeroOrOne : Obligations.FlagSettersLeaveZeroOrOne := by
  intro i s t hsets h
  cases i with
  | addReg | subReg | subn | shr | shl =>
    cases h
    rw [getV_setVThenFlag_vf]
    exact flagByte_eq_zero_or_one _
  | addI =>
    cases h
    rw [getV_setV_same]
    exact flagByte_eq_zero_or_one _
  | drw =>
    cases eq_of_guarded_next h
    rw [getV_setV_same]
    exact flagByte_eq_zero_or_one _
  | _ => cases hsets

end Sys2Proof

/-! Memory transfers: LD B and LD [I] are one block store behind a range check, LD Vx, [I] is one block of register writes behind
the same check, and the next fetch sees a block stored at PC (spec 43_index_memory.md R190, R196 to R200; 20_memory.md R83). -/

namespace Sys2Proof

open Sys2Proof.Machine

theorem rangeOk_of_le {a n : Nat} (h : a + n ≤ 4096) : rangeOk a n = true := (rangeOk_iff a n).mpr (.inr h)

theorem rangeOk_eq_false {a n : Nat} (hpos : 0 < n) (h : 4096 < a + n) : rangeOk a n = false := by
  rw [Bool.eq_false_iff, ne_eq, rangeOk_iff]
  omega

/-- What an instruction that stores a block of bytes at I, after checking that the block lies in memory, does. -/
theorem blockStore_spec {i : Instr} {s : State} {vs : List Byte}
    (h : exec i s =
      if rangeOk s.indexAddr vs.length then .next (s.storeBytes s.indexAddr vs) else .fault .addrOutOfRange) :
    (s.i.toNat + vs.length ≤ 4096 → ∃ t, exec i s = .next t ∧
      (∀ k, t.mem.read (s.i.toNat + k) = vs.getD k (s.mem.read (s.i.toNat + k))) ∧
      KeepsAllBut (IsByteOf s.i.toNat vs.length) s t) ∧
    (0 < vs.length → 4096 < s.i.toNat + vs.length → exec i s = .fault .addrOutOfRange) := by
  constructor
  · intro hin
    refine ⟨s.storeBytes s.indexAddr vs, h.trans (if_pos (rangeOk_of_le hin)), fun k => ?_, keepsAllBut_storeBytes s _ vs⟩
    rw [storeBytes_mem, State.indexAddr, Memory.read_writeBytes, if_pos (Nat.le_add_right _ _), Nat.add_sub_cancel_left]
  · intro hpos hout
    rw [h, State.indexAddr, rangeOk_eq_false hpos hout, if_neg Bool.false_ne_true]

theorem exec_ldB (x : Reg) (s : State) :
    exec (.ldB x) s =
      if rangeOk s.indexAddr (decimalDigits (s.getV x)).length then
        .next (s.storeBytes s.indexAddr (decimalDigits (s.getV x)))
      else .fault .addrOutOfRange := rfl

theorem exec_storeRegs (x : Reg) (s : State) :
    exec (.storeRegs x) s =
      if rangeOk s.indexAddr (s.firstVs x).length then .next (s.storeBytes s.indexAddr (s.firstVs x))
      else .fault .addrOutOfRange := by
  rw [length_firstVs]
  rfl

theorem exec_loadRegs (x : Reg) (s : State) :
    exec (.loadRegs x) s =
      if rangeOk s.indexAddr (x.val + 1) then .next (s.setVs 0 (s.readBytes s.indexAddr (x.val + 1)))
      else .fault .addrOutOfRange := rfl

theorem toNat_ofNat_byte {n : Nat} (h : n < 256) : (BitVec.ofNat 8 n).toNat = n := by
  rw [BitVec.toNat_ofNat, Nat.mod_eq_of_lt h]

/-- Settles O43: LD B is one block store of the three digits. -/
theorem ldBStoresThreeDigits : Obligations.LdBStoresThreeDigits := by
  constructor
  · intro s x hin
    obtain ⟨t, ht, hread, hframe⟩ := (blockStore_spec (exec_ldB x s)).1 (by simp only [decimalDigits, List.length]; omega)
    have hbyte := (s.getV x).isLt
    refine ⟨t, ht, ?_, ?_, ?_, hframe⟩
    · exact (congrArg BitVec.toNat (hread 0)).trans (toNat_ofNat_byte (by omega))
    · exact (congrArg BitVec.toNat (hread 1)).trans (toNat_ofNat_byte (by omega))
    · exact (congrArg BitVec.toNat (hread 2)).trans (toNat_ofNat_byte (by omega))
  · intro s x hout
    exact (blockStore_spec (exec_ldB x s)).2 (Nat.succ_pos _) (by simp only [decimalDigits, List.length]; omega)

/-- Settles O44: LD [I], Vx is one block store of V[0..x]. -/
theorem storeRegistersCopiesToMemory : Obligations.StoreRegistersCopiesToMemory := by
  constructor
  · intro s x hin
    obtain ⟨t, ht, hread, hframe⟩ := (blockStore_spec (exec_storeRegs x s)).1 (by rw [length_firstVs]; omega)
    rw [length_firstVs] at hframe
    refine ⟨t, ht, fun k hk => ?_, hframe⟩
    rw [hread, getD_firstVs, if_pos hk]
  · intro s x hout
    exact (blockStore_spec (exec_storeRegs x s)).2 (by simp) (by rw [length_firstVs]; omega)

theorem keepsAllBut_setVs (s : State) (vs : List Byte) :
    KeepsAllBut (fun p => ∃ k : Reg, k.val < vs.length ∧ p = .v k) s (s.setVs 0 vs) := by
  intro p hp
  cases p with
  | v r =>
    have hr : vs.length ≤ r.val := by
      by_contra hlt
      exact hp ⟨r, by omega, rfl⟩
    rw [SameAt, getV_setVs, if_pos r.val.zero_le, Nat.sub_zero, List.getD_eq_default _ _ hr]
  | _ =>
    rw [setVs_eq]
    rfl

/-- Settles O45: LD Vx, [I] writes V[0..x] from the bytes read at I. -/
theorem loadRegistersCopiesFromMemory : Obligations.LoadRegistersCopiesFromMemory := by
  constructor
  · intro s x hin
    refine ⟨_, (exec_loadRegs x s).trans (if_pos (rangeOk_of_le (by rw [State.indexAddr]; omega))), fun k hk => ?_, ?_⟩
    · have hkx : k.val < x.val + 1 := Nat.lt_succ_of_le hk
      rw [getV_setVs, if_pos k.val.zero_le, Nat.sub_zero, getD_readBytes, if_pos hkx, State.indexAddr]
    · refine (keepsAllBut_setVs s _).mono ?_
      rintro p ⟨k, hk, rfl⟩
      rw [length_readBytes] at hk
      exact ⟨k, Nat.le_of_lt_succ hk, rfl⟩
  · intro s x hout
    rw [exec_loadRegs, State.indexAddr, rangeOk_eq_false (Nat.succ_pos _) (by omega), if_neg Bool.false_ne_true]

/-- Settles O46: both bytes at PC were stored, so they lie in memory and are what the fetch reads. -/
theorem storedBytesAreFetched : Obligations.StoredBytesAreFetched := by
  intro s t x j k h hkj hkx hpc
  have hkx' : k.val ≤ x.val := hkx
  by_cases hin : s.i.toNat + x.val ≤ 0xFFF
  · obtain ⟨t', ht', hread, -⟩ := storeRegistersCopiesToMemory.1 s x hin
    cases ht'.symm.trans h
    have hhigh := hread j (Fin.le_def.mpr (by omega))
    have hlow := hread k hkx
    refine ⟨by unfold CanFetch; omega, ?_⟩
    rw [opcodeAt, hpc, hhigh, Nat.add_assoc, ← hkj, hlow]
  · cases (storeRegistersCopiesToMemory.2 s x (by omega)).symm.trans h

end Sys2Proof

/-! Display: CLS writes the pixels, DRW the pixels and then VF, behind a range check of its sprite rows (spec 44_display.md R211
to R218). -/

namespace Sys2Proof

open Sys2Proof.Machine

theorem keepsAllBut_fb (s : State) (fb : Framebuffer) : KeepsAllBut IsPixel s { s with fb := fb } := by
  intro p hp
  cases p with
  | pixel row col => exact absurd ⟨row, col, rfl⟩ hp
  | _ => rfl

/-- The state that a DRW in range leaves (R213). -/
def afterDrw (s : State) (x y : Reg) (n : RowCount) : State :=
  { s with fb := (s.drawn x y n).1 }.setV .vf (collisionFlag (s.drawn x y n).2)

theorem exec_cls (x : Nibble) (s : State) : exec (.cls x) s = .next { s with fb := Framebuffer.clear } := rfl

theorem exec_drw (x y : Reg) (n : RowCount) (s : State) :
    exec (.drw x y n) s = if rangeOk s.indexAddr n.val then .next (afterDrw s x y n) else .fault .addrOutOfRange := rfl

theorem keepsAllBut_afterDrw (s : State) (x y : Reg) (n : RowCount) :
    KeepsAllBut (fun p => IsPixel p ∨ p = .v .vf) s (afterDrw s x y n) :=
  ((keepsAllBut_fb s _).mono fun _ => .inl).trans ((keepsAllBut_setV _ .vf _).mono fun _ => .inr)

theorem afterDrw_pixel (s : State) (x y : Reg) (n : RowCount) (row : Fin 32) (col : Fin 64) :
    (afterDrw s x y n).fb.pixel row col = (s.fb.pixel row col ^^ spriteBit s x y n row col) :=
  (drawn_spec s x y n).1 row col

theorem afterDrw_vf (s : State) (x y : Reg) (n : RowCount) :
    (afterDrw s x y n).getV .vf = collisionFlag (s.drawn x y n).2 := getV_setV_same _ _ _

theorem flagByte_eq_one_iff (b : Bool) : flagByte b = 1 ↔ b = true := by cases b <;> decide

/-- A pixel is turned off exactly when it was set and meets a sprite bit 1, so VF tells whether one was (R217). -/
theorem afterDrw_vf_eq_one_iff (s : State) (x y : Reg) (n : RowCount) :
    (afterDrw s x y n).getV .vf = 1 ↔
      ∃ (row : Fin 32) (col : Fin 64), s.fb.pixel row col = true ∧ (afterDrw s x y n).fb.pixel row col = false := by
  rw [afterDrw_vf, collisionFlag, flagByte_eq_one_iff, (drawn_spec s x y n).2]
  simp only [afterDrw_pixel]
  refine exists_congr fun row => exists_congr fun col => and_congr_right fun hset => ?_
  rw [hset, Bool.true_xor, Bool.not_eq_false']

/-- Settles O47: CLS is one write of the framebuffer. -/
theorem clsClearsTheFramebuffer : Obligations.ClsClearsTheFramebuffer := fun s x =>
  ⟨_, exec_cls x s, fun _ _ => pixel_clear _ _, keepsAllBut_fb s _⟩

/-- Settles O48: in range DRW leaves `afterDrw`; otherwise the range check stops it. -/
theorem drwBlitsTheSprite : Obligations.DrwBlitsTheSprite := by
  constructor
  · intro s x y n hin
    have hrange : rangeOk s.indexAddr n.val = true := by
      rw [rangeOk_iff, State.indexAddr]
      omega
    refine ⟨afterDrw s x y n, (exec_drw x y n s).trans (if_pos hrange), afterDrw_pixel s x y n,
      afterDrw_vf_eq_one_iff s x y n, ?_, keepsAllBut_afterDrw s x y n⟩
    rw [afterDrw_vf]
    exact flagByte_eq_zero_or_one _
  · intro s x y n hpos hout
    rw [exec_drw, State.indexAddr, rangeOk_eq_false hpos (by omega), if_neg Bool.false_ne_true]

/-- The sprite bits depend on the start position modulo the grid and on the sprite's bytes alone (R214, R215). -/
theorem spriteBit_congr {s u : State} {x y x' y' : Reg} {n : RowCount}
    (hcol : (u.getV x').toNat % 64 = (s.getV x).toNat % 64) (hrow : (u.getV y').toNat % 32 = (s.getV y).toNat % 32)
    (hbytes : ∀ r, r < n.val → u.mem.read (u.i.toNat + r) = s.mem.read (s.i.toNat + r)) (row col : Nat) :
    spriteBit u x' y' n row col = spriteBit s x y n row col := by
  simp only [spriteBit, hcol, hrow]
  by_cases hreach : (s.getV y).toNat % 32 ≤ row ∧ row < (s.getV y).toNat % 32 + n.val
  · rw [hbytes _ (by omega)]
  · have hno (p : Prop) : ¬((s.getV y).toNat % 32 ≤ row ∧ row < (s.getV y).toNat % 32 + n.val ∧ p) :=
      fun h => hreach ⟨h.1, h.2.1⟩
    rw [decide_eq_false (hno _), Bool.false_and, Bool.false_and]

/-- Settles O49: the second draw exclusive-ors the same sprite bits, so they cancel, and it turns off what the first turned on. -/
theorem drawingTwiceRestoresTheFramebuffer : Obligations.DrawingTwiceRestoresTheFramebuffer := by
  intro s t u x y x' y' n h hfb hcol hrow hin hbytes
  obtain rfl : afterDrw s x y n = t := eq_of_guarded_next h
  have hrestored : (afterDrw u x' y' n).fb = s.fb := by
    refine framebuffer_ext _ _ fun row col => ?_
    rw [afterDrw_pixel, hfb, afterDrw_pixel, spriteBit_congr hcol hrow hbytes, Bool.xor_assoc, Bool.xor_self,
      Bool.xor_false]
  refine ⟨afterDrw u x' y' n, (exec_drw x' y' n u).trans (if_pos (rangeOk_of_le hin)), hrestored, ?_⟩
  rw [afterDrw_vf_eq_one_iff, hrestored, hfb]
  simp only [and_comm]

end Sys2Proof

/-! Keypad and host: the key skips, the key wait in its four cases, and what LOAD, TICK, KEY_SET and FB_READ do (spec
45_keypad_timers.md R231 to R247, 70_reset_and_hazards.md R290 to R294). -/

namespace Sys2Proof

open Sys2Proof.Machine

theorem exec_skp_of_key {s : State} {x : Reg} {k : KeyId} (h : (s.getV x).toNat = k.val) :
    exec (.skp x) s = .next (s.setPc (if s.key k then s.pc + 2 else s.pc)) := by
  simp only [exec, execSkp, (keyOperand_eq_some _ k).mpr h, skipIf_eq]

theorem exec_sknp_of_key {s : State} {x : Reg} {k : KeyId} (h : (s.getV x).toNat = k.val) :
    exec (.sknp x) s = .next (s.setPc (if s.key k then s.pc else s.pc + 2)) := by
  simp only [exec, execSknp, (keyOperand_eq_some _ k).mpr h, skipIf_eq]
  cases s.key k <;> rfl

theorem exec_skp_of_no_key {s : State} {x : Reg} (h : 15 < (s.getV x).toNat) :
    exec (.skp x) s = .fault .keyIndexOutOfRange := by
  simp only [exec, execSkp, (keyOperand_eq_none _).mpr h]

theorem exec_sknp_of_no_key {s : State} {x : Reg} (h : 15 < (s.getV x).toNat) :
    exec (.sknp x) s = .fault .keyIndexOutOfRange := by
  simp only [exec, execSknp, (keyOperand_eq_none _).mpr h]

/-- Settles O50: with a key id in V[x] both skips are one write of PC; without one both stop. -/
theorem keySkipsTestTheKeyLevel : Obligations.KeySkipsTestTheKeyLevel :=
  ⟨fun _ _ _ h => ⟨completes_of_exec_eq_setPc (exec_skp_of_key h), completes_of_exec_eq_setPc (exec_sknp_of_key h)⟩,
    fun _ _ h => ⟨exec_skp_of_no_key h, exec_sknp_of_no_key h⟩⟩

/-- One STEP of the key wait: nothing pressed yet, a key latched, a key held, or its id delivered (R236). -/
theorem exec_ldVxK_cases (x : Reg) (s : State) :
    (s.kwState = .waiting ∧ (∀ k, s.key k = false) ∧ exec (.ldVxK x) s = .next s.retryPc) ∨
    (∃ k, s.kwState = .waiting ∧ s.key k = true ∧ (∀ j, j < k → s.key j = false) ∧
      exec (.ldVxK x) s = .next { s.retryPc with kwState := .keyDown, kwKey := k }) ∨
    (s.kwState = .keyDown ∧ s.key s.kwKey = true ∧ exec (.ldVxK x) s = .next s.retryPc) ∨
    (s.kwState = .keyDown ∧ s.key s.kwKey = false ∧
      exec (.ldVxK x) s = .next { s.setV x (keyByte s.kwKey) with kwState := .waiting }) := by
  cases hstate : s.kwState with
  | waiting =>
    cases hfirst : s.firstKey with
    | none => exact .inl ⟨rfl, (firstKey_eq_none s).mp hfirst, by simp only [exec, execLdVxK, hstate, hfirst]⟩
    | some k =>
      obtain ⟨hpressed, hleast⟩ := (firstKey_eq_some s k).mp hfirst
      exact .inr (.inl ⟨k, rfl, hpressed, hleast, by simp only [exec, execLdVxK, hstate, hfirst]⟩)
  | keyDown =>
    cases hkey : s.key s.kwKey with
    | true => exact .inr (.inr (.inl ⟨rfl, rfl, by simp only [exec, execLdVxK, hstate, hkey, if_true]⟩))
    | false => exact .inr (.inr (.inr ⟨rfl, rfl, by simp [exec, execLdVxK, hstate, hkey]⟩))

theorem keepsAllBut_retryPc (s : State) : KeepsAllBut (· = .pc) s s.retryPc := keepsAllBut_setPc s _

theorem keepsAllBut_keyWait (s : State) (w : KeyWait) (k : KeyId) :
    KeepsAllBut (fun p => p = .kwState ∨ p = .kwKey) s { s with kwState := w, kwKey := k } := by
  intro p hp
  cases p with
  | kwState | kwKey => simp at hp
  | _ => rfl

theorem keepsAllBut_kwState (s : State) (w : KeyWait) : KeepsAllBut (· = .kwState) s { s with kwState := w } := by
  intro p hp
  cases p with
  | kwState => exact absurd rfl hp
  | _ => rfl

theorem keyByte_toNat (k : KeyId) : (keyByte k).toNat = k.val := toNat_ofNat_byte (by omega)

/-- Settles O51: the four cases of the key wait exclude each other, and each is one or two writes. -/
theorem keyWaitLatchesHoldsDelivers : Obligations.KeyWaitLatchesHoldsDelivers := by
  intro s x
  rcases exec_ldVxK_cases x s with ⟨hstate, hnone, h⟩ | ⟨k, hstate, hkey, hleast, h⟩ | ⟨hstate, hkey, h⟩ |
    ⟨hstate, hkey, h⟩ <;> refine ⟨_, h, ?_⟩
  · exact ⟨fun _ _ => ⟨rfl, keepsAllBut_retryPc s⟩, fun k _ hk => (nomatch (hnone k).symm.trans hk),
      fun hd => (nomatch hstate.symm.trans hd), fun hd => (nomatch hstate.symm.trans hd)⟩
  · refine ⟨fun _ hnone => (nomatch (hnone k).symm.trans hkey), fun j _ hj hjleast => ?_,
      fun hd => (nomatch hstate.symm.trans hd), fun hd => (nomatch hstate.symm.trans hd)⟩
    obtain rfl : j = k := by
      rcases lt_trichotomy j k with hlt | heq | hlt
      · exact nomatch (hleast j hlt).symm.trans hj
      · exact heq
      · exact nomatch (hjleast k hlt).symm.trans hkey
    exact ⟨rfl, rfl, rfl, ((keepsAllBut_retryPc s).mono fun _ => .inl).trans
      ((keepsAllBut_keyWait s.retryPc .keyDown j).mono fun _ => .inr)⟩
  · exact ⟨fun hw => (nomatch hstate.symm.trans hw), fun _ hw => (nomatch hstate.symm.trans hw),
      fun _ _ => ⟨rfl, keepsAllBut_retryPc s⟩, fun _ hup => (nomatch hkey.symm.trans hup)⟩
  · refine ⟨fun hw => (nomatch hstate.symm.trans hw), fun _ hw => (nomatch hstate.symm.trans hw),
      fun _ hheld => (nomatch hkey.symm.trans hheld), fun _ _ => ⟨?_, rfl, ?_⟩⟩
    · exact (congrArg BitVec.toNat (getV_setV_same s x _)).trans (keyByte_toNat _)
    · exact ((keepsAllBut_setV s x _).mono fun _ => .inl).trans ((keepsAllBut_kwState _ .waiting).mono fun _ => .inr)

/-! ### The host's operations -/

theorem countDown_toNat (b : Byte) : (countDown b).toNat = b.toNat - 1 := by
  unfold countDown
  split
  · next h => rw [h]; rfl
  · next h =>
    have hpos : b.toNat ≠ 0 := fun h0 => h (BitVec.eq_of_toNat_eq h0)
    exact BitVec.toNat_sub_of_le (BitVec.le_def.mpr (Nat.one_le_iff_ne_zero.mpr hpos))

theorem keepsAllBut_tick (s : State) : KeepsAllBut (fun p => p = .dt ∨ p = .st) s s.tick := by
  intro p hp
  cases p with
  | dt | st => simp at hp
  | _ => rfl

theorem keepsAllBut_keySet (s : State) (id : KeyId) (b : Bool) : KeepsAllBut (· = .key id) s (s.keySet id b) := by
  intro p hp
  cases p with
  | key k => exact (key_keySet s k id b).trans (if_neg fun e => hp (by rw [e]))
  | _ => rfl

/-- Settles O54: TICK writes the timers, KEY_SET one key, and FB_READ nothing. -/
theorem hostOperationsTouchTheirPartAlone : Obligations.HostOperationsTouchTheirPartAlone := by
  refine ⟨fun s => ⟨s.tick, rfl, countDown_toNat s.dt, countDown_toNat s.st, keepsAllBut_tick s⟩,
    fun s id b => ⟨s.keySet id b, rfl, (key_keySet s id id b).trans (if_pos rfl), keepsAllBut_keySet s id b⟩,
    fun s => ⟨rfl, fun row col => ?_⟩⟩
  simp [State.fbRead, Framebuffer.pixel]

/-- Settles O1: the fields of `State.reset`, and memory with no cell stored. -/
theorem resetHoldsTheTableValues : Obligations.ResetHoldsTheTableValues :=
  ⟨rfl, rfl, by decide, rfl, rfl, rfl, pixel_clear, by decide, rfl, rfl, by decide, fun _ => rfl⟩

theorem keepsAllBut_mem (s : State) (m : Memory) : KeepsAllBut (fun p => ∃ a, p = .mem a) s { s with mem := m } := by
  intro p hp
  cases p with
  | mem a => exact absurd ⟨a, rfl⟩ hp
  | _ => rfl

/-- What a LOAD that completes leaves: the reset state with the loaded memory, whatever state it finds (R291, R294). -/
theorem operate_load_next {font : Font} {rom : Option (List Byte)} {s t : State}
    (h : operate (.load font rom) s = .next t) :
    ∃ bytes, 0 < bytes.length ∧ bytes.length ≤ Config.romMax ∧
      t = { State.reset with mem := loadedMemory font bytes } := by
  cases hload : State.load font rom with
  | error e => simp [operate, hload] at h
  | ok u =>
    obtain rfl : u = t := by simpa [operate, hload] using h
    cases rom with
    | none => cases hload
    | some bytes => exact ⟨bytes, (load_some_eq_ok_iff font bytes u).mp hload⟩

/-- Settles O3: LOAD does not look at the state, and starts from the reset state. -/
theorem loadDiscardsThePriorState : Obligations.LoadDiscardsThePriorState := by
  intro font rom s u t h
  obtain ⟨bytes, -, -, rfl⟩ := operate_load_next h
  exact ⟨keepsAllBut_mem State.reset _, h⟩

end Sys2Proof

/-! The frame of every instruction: what it writes is what the table of writers names for it (spec 10_state.md section 1). -/

namespace Sys2Proof

open Sys2Proof.Machine

theorem keepsAllBut_skipIf (s : State) (c : Bool) : KeepsAllBut (· = .pc) s (s.skipIf c) := by
  rw [skipIf_eq]
  exact keepsAllBut_setPc s _

/-- A byte names a key or is above 15 (R231). -/
theorem key_or_above (b : Byte) : (∃ k : KeyId, b.toNat = k.val) ∨ 15 < b.toNat := by
  rcases Nat.lt_or_ge 15 b.toNat with h | h
  · exact .inr h
  · exact .inl ⟨⟨b.toNat, by omega⟩, rfl⟩

/-- The places that LD B or LD [I] stores to, as the table of writers names them. -/
theorem isByteOf_bounds {a n : Nat} {p : Place} (h : IsByteOf a (n + 1) p) :
    ∃ b, p = .mem b ∧ a ≤ b ∧ b ≤ a + n := by
  obtain ⟨k, hk, rfl⟩ := h
  exact ⟨a + k, rfl, by omega, by omega⟩

/-- A frame of one place holds within every list of places that has it. -/
theorem KeepsAllBut.of_one {c : Place → Prop} {q : Place} {s t : State} (h : KeepsAllBut (· = q) s t) (hq : c q) :
    KeepsAllBut c s t :=
  h.mono fun _ hp => hp ▸ hq

theorem KeepsAllBut.of_two {c : Place → Prop} {q r : Place} {s t : State} (h : KeepsAllBut (fun p => p = q ∨ p = r) s t)
    (hq : c q) (hr : c r) : KeepsAllBut c s t :=
  h.mono fun _ hp => hp.elim (fun e => e ▸ hq) fun e => e ▸ hr

/-- Settles O19: each instruction's writes, by the shape of its meaning: one register, one register and the flag, PC, and so on. -/
theorem onlyTheListedWritersWrite : Obligations.OnlyTheListedWritersWrite := by
  intro i s t h
  cases i with
  | ldImm x | addImm x | ldReg x | orReg x | andReg x | xorReg x | rnd x | ldVxDt x =>
    cases h
    exact (keepsAllBut_setV s x _).of_one rfl
  | addReg x | subReg x | subn x | shr x | shl x =>
    cases h
    exact (keepsAllBut_setVThenFlag s x _ _).of_two (.inl rfl) (.inr rfl)
  | jp | jpV0 =>
    cases h
    exact (keepsAllBut_setPc s _).of_one trivial
  | seImm | sneImm | seReg | sneReg =>
    cases h
    exact (keepsAllBut_skipIf s _).of_one trivial
  | skp x | sknp x =>
    obtain ⟨k, hk⟩ | habove := key_or_above (s.getV x)
    · simp only [exec_skp_of_key hk, exec_sknp_of_key hk] at h
      cases h
      exact (keepsAllBut_setPc s _).of_one trivial
    · simp only [exec_skp_of_no_key habove, exec_sknp_of_no_key habove, reduceCtorEq] at h
  | ldI addr =>
    cases h
    exact (keepsAllBut_setI s _).of_one (.inl ⟨addr, rfl⟩)
  | ldF x =>
    cases h
    exact (keepsAllBut_setI s _).of_one (.inr (.inr ⟨x, rfl⟩))
  | addI x =>
    obtain ⟨u, hu, -, -, hframe⟩ := addIWrapsAndFlagsBeyondMemory s x
    cases hu.symm.trans h
    exact hframe.of_two (.inr (.inl ⟨x, rfl⟩)) rfl
  | ldDtVx x =>
    cases h
    exact (keepsAllBut_setDt s _).of_one ⟨x, rfl⟩
  | ldStVx x =>
    cases h
    exact (keepsAllBut_setSt s _).of_one ⟨x, rfl⟩
  | cls x =>
    cases h
    refine (keepsAllBut_fb s _).mono ?_
    rintro _ ⟨row, col, rfl⟩
    exact .inl ⟨x, rfl⟩
  | drw x y n =>
    obtain rfl : afterDrw s x y n = t := eq_of_guarded_next h
    refine (keepsAllBut_afterDrw s x y n).mono ?_
    rintro _ (⟨row, col, rfl⟩ | rfl)
    · exact .inr ⟨x, y, n, rfl⟩
    · exact rfl
  | ldB x =>
    cases eq_of_guarded_next h
    refine (keepsAllBut_storeBytes s _ _).mono fun p hp => ?_
    obtain ⟨b, rfl, hlow, hhigh⟩ := isByteOf_bounds hp
    exact .inl ⟨x, rfl, hlow, hhigh⟩
  | storeRegs x =>
    cases eq_of_guarded_next h
    refine (keepsAllBut_storeBytes s _ _).mono fun p hp => ?_
    rw [length_firstVs] at hp
    obtain ⟨b, rfl, hlow, hhigh⟩ := isByteOf_bounds hp
    exact .inr ⟨x, rfl, hlow, hhigh⟩
  | loadRegs x =>
    cases eq_of_guarded_next h
    refine (keepsAllBut_setVs s _).mono ?_
    rintro _ ⟨k, hk, rfl⟩
    rw [length_readBytes] at hk
    exact Nat.le_of_lt_succ hk
  | ret x =>
    obtain ⟨a, u, hpop, rfl⟩ | ⟨-, rfl⟩ := execRet_next_cases h
    · obtain ⟨-, -, -, -, hframe⟩ := pop_spec hpop
      exact (hframe.of_one (.inr ⟨x, rfl⟩)).trans ((keepsAllBut_setPc u a).of_one trivial)
    · exact (keepsAllBut_raise s _ _).of_one (.inr ⟨x, rfl⟩)
  | call addr =>
    obtain ⟨u, hpush, rfl⟩ | ⟨-, rfl⟩ := execCall_next_cases h
    · obtain ⟨k, -, -, -, hframe⟩ := push_spec hpush
      exact (hframe.of_two (.inl ⟨addr, rfl⟩) ⟨addr, rfl⟩).trans ((keepsAllBut_setPc u _).of_one trivial)
    · exact (keepsAllBut_raise s _ _).of_one (.inl ⟨addr, rfl⟩)
  | ldVxK x =>
    have hpc : KeepsAllBut (mayWrite s (.ldVxK x)) s s.retryPc := (keepsAllBut_retryPc s).of_one trivial
    rcases exec_ldVxK_cases x s with ⟨-, -, hx⟩ | ⟨k, -, -, -, hx⟩ | ⟨-, -, hx⟩ | ⟨-, -, hx⟩ <;>
      cases hx.symm.trans h
    · exact hpc
    · exact hpc.trans ((keepsAllBut_keyWait s.retryPc .keyDown k).of_two ⟨x, rfl⟩ ⟨x, rfl⟩)
    · exact hpc
    · have hv : KeepsAllBut (mayWrite s (.ldVxK x)) s (s.setV x (keyByte s.kwKey)) := (keepsAllBut_setV s x _).of_one rfl
      exact hv.trans ((keepsAllBut_kwState _ .waiting).of_one ⟨x, rfl⟩)

end Sys2Proof

/-! A whole STEP: whether it completes or stops, where it leaves PC, and what it reports (spec 40_instruction_cycle.md R120 to R128,
60_exceptions.md R250 to R256). -/

namespace Sys2Proof

open Sys2Proof.Machine

/-- The state in which `step` runs its cycle: the next random byte is drawn (R13). -/
def withDraw (s : State) : State := { s with rnd := Config.rndInput s.draws, draws := s.draws + 1 }

theorem step_eq_cycle_withDraw (s : State) : step s = cycle (withDraw s) := rfl

/-! ### Stops -/

/-- Settles O12: both STEPs are one cycle, whose fetch finds no word. -/
theorem fetchAboveMemoryStops : Obligations.FetchAboveMemoryStops := by
  have hcycle (s : State) (h : 0xFFF ≤ s.pc.toNat) : cycle s = .fault .addrOutOfRange := by
    rw [cycle_eq, if_neg (by omega)]
  intro s h
  rw [step_eq_cycle_withDraw]
  exact ⟨hcycle (withDraw s) h, fun r => hcycle { s with rnd := r } h⟩

/-- The rows of R256 that name an instruction: the reason its execution in `s` stops, if it does. -/
def execStop (s : State) : Instr → Option Fault
  | .drw _ _ n => if 0 < n.val ∧ 0xFFF < s.i.toNat + n.val - 1 then some .addrOutOfRange else none
  | .ldB _ => if 0xFFF < s.i.toNat + 2 then some .addrOutOfRange else none
  | .storeRegs x => if 0xFFF < s.i.toNat + x.val then some .addrOutOfRange else none
  | .loadRegs x => if 0xFFF < s.i.toNat + x.val then some .addrOutOfRange else none
  | .skp x => if 15 < (s.getV x).toNat then some .keyIndexOutOfRange else none
  | .sknp x => if 15 < (s.getV x).toNat then some .keyIndexOutOfRange else none
  | _ => none

/-- An outcome that completes when there is no reason to stop, and else stops for that reason; it is never a refusal. -/
inductive EndsAs : Option Fault → Host.Outcome State Fault Refusal → Prop where
  | next (t : State) : EndsAs none (.next t)
  | fault (f : Fault) : EndsAs (some f) (.fault f)

theorem endsAs_none {o : Host.Outcome State Fault Refusal} (h : ∃ t, o = .next t) : EndsAs none o := by
  obtain ⟨t, rfl⟩ := h
  exact .next t

theorem endsAs_guard {c : Prop} [Decidable c] {f : Fault} {o : Host.Outcome State Fault Refusal}
    (hstop : c → o = .fault f) (hnext : ¬c → ∃ t, o = .next t) : EndsAs (if c then some f else none) o := by
  split
  · next h =>
    rw [hstop h]
    exact .fault f
  · next h => exact endsAs_none (hnext h)

theorem EndsAs.fault_iff {stop : Option Fault} {o : Host.Outcome State Fault Refusal} (h : EndsAs stop o) (f : Fault) :
    o = .fault f ↔ stop = some f := by
  cases h <;> simp

theorem EndsAs.completes {o : Host.Outcome State Fault Refusal} (h : EndsAs none o) : ∃ t, o = .next t := by
  cases h with
  | next t => exact ⟨t, rfl⟩

theorem EndsAs.ne_refused {stop : Option Fault} {o : Host.Outcome State Fault Refusal} (h : EndsAs stop o) (r : Refusal) :
    o ≠ .refused r := by
  cases h <;> nofun

/-- Every instruction completes or stops, and stops exactly as R256 lists. -/
theorem exec_endsAs (i : Instr) (s : State) : EndsAs (execStop s i) (exec i s) := by
  cases i with
  | drw x y n =>
    refine endsAs_guard (fun h => drwBlitsTheSprite.2 s x y n h.1 h.2) fun h => ?_
    obtain ⟨t, ht, -⟩ := drwBlitsTheSprite.1 s x y n (by omega)
    exact ⟨t, ht⟩
  | ldB x =>
    refine endsAs_guard (ldBStoresThreeDigits.2 s x) fun h => ?_
    obtain ⟨t, ht, -⟩ := ldBStoresThreeDigits.1 s x (Nat.le_of_not_lt h)
    exact ⟨t, ht⟩
  | storeRegs x =>
    refine endsAs_guard (storeRegistersCopiesToMemory.2 s x) fun h => ?_
    obtain ⟨t, ht, -⟩ := storeRegistersCopiesToMemory.1 s x (Nat.le_of_not_lt h)
    exact ⟨t, ht⟩
  | loadRegs x =>
    refine endsAs_guard (loadRegistersCopiesFromMemory.2 s x) fun h => ?_
    obtain ⟨t, ht, -⟩ := loadRegistersCopiesFromMemory.1 s x (Nat.le_of_not_lt h)
    exact ⟨t, ht⟩
  | skp x =>
    refine endsAs_guard exec_skp_of_no_key fun h => ?_
    obtain ⟨k, hk⟩ := (key_or_above (s.getV x)).resolve_right h
    exact ⟨_, exec_skp_of_key hk⟩
  | sknp x =>
    refine endsAs_guard exec_sknp_of_no_key fun h => ?_
    obtain ⟨k, hk⟩ := (key_or_above (s.getV x)).resolve_right h
    exact ⟨_, exec_sknp_of_key hk⟩
  | ret x =>
    obtain ⟨t, ht, -⟩ := retPopsOrReportsUnderflow s x
    exact endsAs_none ⟨t, ht⟩
  | call addr =>
    obtain ⟨t, ht, -⟩ := callPushesOrReportsOverflow s addr
    exact endsAs_none ⟨t, ht⟩
  | ldVxK x =>
    obtain ⟨t, ht, -⟩ := keyWaitLatchesHoldsDelivers s x
    exact endsAs_none ⟨t, ht⟩
  | _ => exact .next _

theorem stopReason_of_cannotFetch {s : State} (h : ¬CanFetch s) : stopReason s = some .addrOutOfRange :=
  if_pos (Nat.lt_of_not_le h)

theorem stopReason_of_instr {s : State} {i : Instr} (h : Executes s i) : stopReason s = execStop s i := by
  obtain ⟨hfetch, hdecode⟩ := h
  rw [stopReason, if_neg (by omega), hdecode]
  cases i <;> rfl

theorem stopReason_of_undefined {s : State} {row : UndefinedRow} (hfetch : CanFetch s)
    (hdecode : decode (opcodeAt s) = .undefined row) : stopReason s = none := by
  rw [stopReason, if_neg (by omega), hdecode]

/-- A cycle of a state whose opcode is undefined reports it and does nothing else (R125). -/
theorem cycle_of_undefined {s : State} {row : UndefinedRow} (hfetch : CanFetch s)
    (hdecode : decode (opcodeAt s) = .undefined row) :
    cycle s = .next (s.beginStep.raise .undefinedOpcode (opcodeAt s)) := by
  rw [cycle_eq, if_pos hfetch, hdecode]

/-- A cycle completes or stops, and stops exactly as R256 lists. -/
theorem cycle_endsAs (s : State) : EndsAs (stopReason s) (cycle s) := by
  by_cases hfetch : CanFetch s
  · cases hdecode : decode (opcodeAt s) with
    | instr i =>
      have hi : Executes s i := ⟨hfetch, hdecode⟩
      rw [stopReason_of_instr hi, cycle_of_executes hi]
      exact exec_endsAs i s.beginStep
    | undefined row =>
      rw [stopReason_of_undefined hfetch hdecode, cycle_of_undefined hfetch hdecode]
      exact .next _
  · rw [stopReason_of_cannotFetch hfetch, cycle_eq, if_neg hfetch]
    exact .fault _

/-- `step` is one cycle of the state with the drawn byte, which no stop depends on. -/
theorem step_endsAs (s : State) : EndsAs (stopReason s) (step s) := by
  rw [step_eq_cycle_withDraw]
  exact cycle_endsAs (withDraw s)

/-- Settles O14: a STEP ends as `stopReason` says. -/
theorem stepStopsExactlyAsListed : Obligations.StepStopsExactlyAsListed := fun s => (step_endsAs s).fault_iff

theorem execStop_eq_some {s : State} {i : Instr} {f : Fault} (h : execStop s i = some f) :
    f = .addrOutOfRange ∨ f = .keyIndexOutOfRange := by
  unfold execStop at h
  split at h
  case h_7 => cases h
  all_goals
    rw [Option.ite_none_right_eq_some] at h
    obtain ⟨-, hf⟩ := h
    cases hf
    decide

/-- Settles O15: a STEP ends as `stopReason` says, which knows the two faults only, and no instruction is refused. -/
theorem stepCompletesOrStops : Obligations.StepCompletesOrStops := by
  refine ⟨fun s hfetch => ?_, fun s x h => ?_, fun s r => (step_endsAs s).ne_refused r⟩
  · cases hdecode : decode (opcodeAt s) with
    | undefined row =>
      have hends := step_endsAs s
      rw [stopReason_of_undefined hfetch hdecode] at hends
      exact .inl hends.completes
    | instr i =>
      have hends := step_endsAs s
      rw [stopReason_of_instr ⟨hfetch, hdecode⟩] at hends
      cases hstop : execStop s i with
      | none => exact .inl (hstop ▸ hends).completes
      | some f =>
        have hfault := (hends.fault_iff f).mpr hstop
        obtain rfl | rfl := execStop_eq_some hstop
        · exact .inr (.inl hfault)
        · exact .inr (.inr hfault)
  · have hends := step_endsAs s
    rw [stopReason_of_instr h] at hends
    exact hends.completes

/-! ### PC and the report -/

theorem add_two_add_two (w : Word) : w + 2#16 + 2#16 = w + 4#16 := BitVec.add_assoc w 2 2

@[simp] theorem key_beginStep (s : State) (k : KeyId) : s.beginStep.key k = s.key k := rfl

theorem exec_skp_pc {s t : State} {x : Reg} (h : exec (.skp x) s = .next t) :
    t.pc = if ∃ k : KeyId, (s.getV x).toNat = k.val ∧ s.key k = true then s.pc + 2 else s.pc := by
  obtain ⟨k, hk⟩ | habove := key_or_above (s.getV x)
  · have hiff : (∃ j : KeyId, (s.getV x).toNat = j.val ∧ s.key j = true) ↔ s.key k = true := by
      simp [hk, Fin.val_inj]
    cases (exec_skp_of_key hk).symm.trans h
    simp only [setPc_pc, hiff]
  · cases (exec_skp_of_no_key habove).symm.trans h

theorem exec_sknp_pc {s t : State} {x : Reg} (h : exec (.sknp x) s = .next t) :
    t.pc = if ∃ k : KeyId, (s.getV x).toNat = k.val ∧ s.key k = false then s.pc + 2 else s.pc := by
  obtain ⟨k, hk⟩ | habove := key_or_above (s.getV x)
  · have hiff : (∃ j : KeyId, (s.getV x).toNat = j.val ∧ s.key j = false) ↔ ¬s.key k = true := by
      simp [hk, Fin.val_inj]
    cases (exec_sknp_of_key hk).symm.trans h
    simp only [setPc_pc, hiff, ite_not]
  · cases (exec_sknp_of_no_key habove).symm.trans h

/-- Where an instruction leaves PC when it starts at the post-fetch PC (R24). -/
theorem exec_beginStep_pc {i : Instr} {s t : State} (h : exec i s.beginStep = .next t) : t.pc = pcAfter s i := by
  cases i with
  | jp addr =>
    cases h
    rfl
  | jpV0 addr =>
    cases h
    have htarget := indexedTarget_toNat s addr
    have hlt := (s.indexedTarget addr).isLt
    refine BitVec.eq_of_toNat_eq ?_
    rw [pcAfter, BitVec.toNat_ofNat, ← htarget, Nat.mod_eq_of_lt hlt]
    rfl
  | call addr =>
    obtain ⟨u, hpush, rfl⟩ | ⟨hfull, rfl⟩ := execCall_next_cases h
    · obtain ⟨k, hk, -⟩ := push_spec hpush
      have hk' : s.sp + 1 = k.val := hk
      have hsp : s.sp ≠ 11 := by omega
      simp [pcAfter, hsp, zextAddr]
    · have hsp : s.sp = 11 := (push_eq_none s.beginStep _).mp hfull
      simp [pcAfter, hsp]
  | ret x =>
    obtain ⟨a, u, hpop, rfl⟩ | ⟨hempty, rfl⟩ := execRet_next_cases h
    · obtain ⟨k, hk, rfl, -⟩ := pop_spec hpop
      have hsp : s.sp = k.val := hk
      simp [pcAfter, hsp]
    · have hsp : s.sp = -1 := (pop_eq_none s.beginStep).mp hempty
      simp [pcAfter, hsp]
  | seImm | sneImm | seReg | sneReg =>
    cases h
    simp [pcAfter, skipIf_eq, add_two_add_two]
  | skp x => simp [exec_skp_pc h, pcAfter, add_two_add_two]
  | sknp x => simp [exec_sknp_pc h, pcAfter, add_two_add_two]
  | ldVxK x =>
    rcases exec_ldVxK_cases x s.beginStep with ⟨hstate, -, hx⟩ | ⟨k, hstate, -, -, hx⟩ | ⟨hstate, hkey, hx⟩ |
      ⟨hstate, hkey, hx⟩ <;> cases hx.symm.trans h
    all_goals
      rw [beginStep_kwState] at hstate
      simp_all [pcAfter]
  | _ => exact onlyTheListedWritersWrite _ _ _ h .pc id

/-- Settles O16: an instruction leaves PC as `pcAfter` says, and an undefined opcode leaves it past the word. -/
theorem pcAfterEveryStep : Obligations.PcAfterEveryStep := by
  intro s t h
  obtain ⟨-, ⟨i, hdecode, hexec⟩ | ⟨⟨row, hdecode⟩, rfl⟩⟩ := step_next_cases h
  · rw [hdecode]
    exact exec_beginStep_pc (s := withDraw s) hexec
  · rw [hdecode]
    rfl

theorem reportOf_of_none {s : State} (h : conditionOf s = none) : reportOf s = .none := by
  simp only [reportOf, h]

theorem reportOf_of_some {s : State} {c : Condition} (h : conditionOf s = some c) :
    reportOf s = .raised c s.pc (opcodeAt s) := by
  simp only [reportOf, h]

/-- A condition raised in the state where the instruction of a STEP starts carries the pre-step PC (R252). -/
theorem startOf_raise_report (s : State) (c : Condition) (w : Word) :
    ((startOf s).raise c w).report = .raised c s.pc w := by
  rw [raise_report, startOf_pc, BitVec.add_sub_cancel]

/-- What an instruction of a STEP reports: the two rows of R251 that name an instruction, and nothing else. -/
theorem exec_startOf_report {i : Instr} {s t : State} (hdecode : decode (opcodeAt s) = .instr i)
    (h : exec i (startOf s) = .next t) : t.report = reportOf s := by
  have hword := encodeInvertsDecode _ i hdecode
  cases i with
  | call addr =>
    obtain ⟨u, hpush, rfl⟩ | ⟨hfull, rfl⟩ := execCall_next_cases h
    · obtain ⟨k, hk, -⟩ := push_spec hpush
      have hk' : s.sp + 1 = k.val := hk
      have hsp : s.sp ≠ 11 := by omega
      rw [reportOf_of_none (by simp only [conditionOf, hdecode, if_neg hsp])]
      exact push_report hpush
    · have hsp : s.sp = 11 := (push_eq_none (startOf s) _).mp hfull
      have hcondition : conditionOf s = some .stackOverflow := by simp only [conditionOf, hdecode, if_pos hsp]
      rw [startOf_raise_report, hword, reportOf_of_some hcondition]
  | ret x =>
    obtain ⟨a, u, hpop, rfl⟩ | ⟨hempty, rfl⟩ := execRet_next_cases h
    · obtain ⟨k, hk, -⟩ := pop_spec hpop
      have hk' : s.sp = k.val := hk
      have hsp : s.sp ≠ -1 := by omega
      rw [reportOf_of_none (by simp only [conditionOf, hdecode, if_neg hsp])]
      exact pop_report hpop
    · have hsp : s.sp = -1 := (pop_eq_none (startOf s)).mp hempty
      have hcondition : conditionOf s = some .stackUnderflow := by simp only [conditionOf, hdecode, if_pos hsp]
      rw [startOf_raise_report, hword, reportOf_of_some hcondition]
  | _ =>
    rw [reportOf_of_none (by simp only [conditionOf, hdecode])]
    exact onlyTheListedWritersWrite _ _ _ h .report (by simp [mayWrite])

/-- Settles O17: an instruction reports as `reportOf` says, and an undefined opcode is raised with PC and its word. -/
theorem reportAfterEveryStep : Obligations.ReportAfterEveryStep := by
  intro s t h
  obtain ⟨-, ⟨i, hdecode, hexec⟩ | ⟨⟨row, hdecode⟩, rfl⟩⟩ := step_next_cases h
  · exact exec_startOf_report hdecode hexec
  · rw [startOf_raise_report, reportOf_of_some (c := .undefinedOpcode) (by simp only [conditionOf, hdecode])]

/-- Settles O13: the listed words are those that `decode` rejects, and then the cycle only raises the condition. -/
theorem undefinedOpcodeIsAReportedNoOp : Obligations.UndefinedOpcodeIsAReportedNoOp := by
  intro s hfetch hlisted
  obtain ⟨row, hdecode⟩ := (undefinedWordsAreThoseListed _).mpr hlisted
  have hstep : step s = .next ((startOf s).raise .undefinedOpcode (opcodeAt s)) :=
    cycle_of_undefined (s := withDraw s) hfetch hdecode
  exact ⟨_, hstep, startOf_raise_report s _ _, rfl, (keepsAllBut_startOf s).trans
    ((keepsAllBut_raise _ _ _).of_one (.inr (.inl rfl)))⟩

/-! ### Aliases and the self-jump -/

theorem SameAt.symm {p : Place} {s t : State} (h : SameAt p s t) : SameAt p t s := by cases p <;> exact Eq.symm h

theorem canonical_wellFormed (i : Instr) : i.canonical.wellFormed = true := by cases i <;> rfl

theorem wellFormed_iff_canonical_eq (i : Instr) : i.wellFormed = true ↔ i.canonical = i := by
  cases i with
  | cls x | ret x => simp [Instr.wellFormed, Instr.canonical, eq_comm (a := x)]
  | sneReg x y n => simp [Instr.wellFormed, Instr.canonical, eq_comm (a := n)]
  | _ => exact iff_of_true rfl rfl

/-- CLS and SNE do not look at their unexamined digit; RET alone does, for the report (R99). -/
theorem exec_canonical {i : Instr} (h : ∀ x, i ≠ .ret x) (s : State) : exec i.canonical s = exec i s := by
  cases i with
  | ret x => exact absurd rfl (h x)
  | _ => rfl

theorem exec_ret_any_digit (x y : Nibble) (s : State) :
    ∃ t u, exec (.ret x) s = .next t ∧ exec (.ret y) s = .next u ∧ KeepsAllBut (· = .report) t u ∧
      u.report.code = t.report.code := by
  cases hpop : s.pop with
  | none =>
    exact ⟨_, _, exec_ret_of_empty x hpop, exec_ret_of_empty y hpop, fun p hp =>
      ((keepsAllBut_raise s _ _) p hp).symm.trans ((keepsAllBut_raise s _ _) p hp), rfl⟩
  | some popped => exact ⟨_, _, exec_ret_of_pop x hpop, exec_ret_of_pop y hpop, fun p _ => SameAt.refl p _, rfl⟩

/-- Settles O10: only RET's report tells another spelling from the canonical one. -/
theorem aliasesExecuteAsTheirCanonicalInstruction : Obligations.AliasesExecuteAsTheirCanonicalInstruction := by
  intro i
  refine ⟨canonical_wellFormed i, wellFormed_iff_canonical_eq i, fun s => ?_⟩
  by_cases hret : ∃ x, i = .ret x
  · obtain ⟨x, rfl⟩ := hret
    obtain ⟨t, u, ht, hu, hframe, hcode⟩ := exec_ret_any_digit x 0 s
    refine ⟨fun t' ht' => ?_, fun f => ?_⟩
    · cases ht.symm.trans ht'
      exact ⟨u, hu, hframe, hcode⟩
    · rw [Instr.canonical, ht, hu]
      simp
  · rw [exec_canonical (not_exists.mp hret)]
    exact ⟨fun t ht => ⟨t, ht, fun p _ => SameAt.refl p t, rfl⟩, fun _ => Iff.rfl⟩

/-- Settles O55: the jump's target is the PC of before the STEP, so the beginning of the STEP is undone. -/
theorem selfJumpIsQuiescent : Obligations.SelfJumpIsQuiescent := by
  intro s addr h hself r
  obtain ⟨hstep, -⟩ := stepRunsTheDecodedInstruction s _ h
  refine ⟨_, (hstep r).trans (exec_jp addr _), rfl, fun p hp => ?_⟩
  cases p with
  | pc => exact BitVec.eq_of_toNat_eq ((zextAddr_toNat addr).trans hself.symm)
  | rnd | report => simp at hp
  | _ => rfl

end Sys2Proof

/-! The invariants: canonical memory, bounded PC and return addresses, and KeyDown at a key wait only, kept by every cycle and so by
STEP and by every operation of the host (spec 10_state.md R24, R30, R31; 00_scope.md R5, R6). -/

namespace Sys2Proof

open Sys2Proof.Machine

/-- What a completed cycle has done, for whatever random byte: it fetched, and executed the decoded instruction or reported an
undefined opcode (R120). -/
theorem cycle_next_cases {s t : State} (h : cycle s = .next t) :
    (∃ i, Executes s i ∧ exec i s.beginStep = .next t) ∨
    CanFetch s ∧ (∃ row, decode (opcodeAt s) = .undefined row) ∧
      t = s.beginStep.raise .undefinedOpcode (opcodeAt s) := by
  by_cases hfetch : CanFetch s
  · cases hdecode : decode (opcodeAt s) with
    | instr i => exact .inl ⟨i, ⟨hfetch, hdecode⟩, (cycle_of_executes ⟨hfetch, hdecode⟩).symm.trans h⟩
    | undefined row =>
      cases (cycle_of_undefined hfetch hdecode).symm.trans h
      exact .inr ⟨hfetch, ⟨row, rfl⟩, rfl⟩
  · rw [cycle_eq, if_neg hfetch] at h
    cases h

/-! ### Memory -/

/-- An instruction guarded by a range check completes only in range (R190). -/
theorem guard_of_next {c : Prop} [Decidable c] {f : Fault} {u t : State}
    (h : (if c then .next u else .fault f : Host.Outcome State Fault Refusal) = .next t) : c := by
  by_contra hc
  rw [if_neg hc] at h
  cases h

theorem le_of_rangeOk {a n : Nat} (h : rangeOk a (n + 1) = true) : a + (n + 1) ≤ 4096 :=
  ((rangeOk_iff a (n + 1)).mp h).resolve_left (Nat.succ_ne_zero n)

/-- An instruction leaves memory as it was, or stores one block that lies in it. -/
theorem exec_next_mem {i : Instr} {s t : State} (h : exec i s = .next t) :
    t.mem = s.mem ∨ ∃ vs : List Byte, s.i.toNat + vs.length ≤ 4096 ∧ t.mem = s.mem.writeBytes s.i.toNat vs := by
  cases i with
  | ldB x =>
    cases eq_of_guarded_next h
    exact .inr ⟨decimalDigits (s.getV x), le_of_rangeOk (guard_of_next h), rfl⟩
  | storeRegs x =>
    cases eq_of_guarded_next h
    exact .inr ⟨s.firstVs x, (length_firstVs s x).symm ▸ le_of_rangeOk (guard_of_next h), rfl⟩
  | drw =>
    cases eq_of_guarded_next h
    exact .inl rfl
  | loadRegs =>
    cases eq_of_guarded_next h
    rw [setVs_eq]
    exact .inl rfl
  | ret =>
    obtain ⟨a, u, hpop, rfl⟩ | ⟨-, rfl⟩ := execRet_next_cases h
    · obtain ⟨-, -, rfl⟩ := (pop_eq_some _ _ _).mp hpop
      exact .inl rfl
    · exact .inl rfl
  | call =>
    obtain ⟨u, hpush, rfl⟩ | ⟨-, rfl⟩ := execCall_next_cases h
    · obtain ⟨-, rfl⟩ := (push_eq_some _ _ _).mp hpush
      exact .inl rfl
    · exact .inl rfl
  | seImm | sneImm | seReg | sneReg =>
    cases h
    rw [skipIf_eq]
    exact .inl rfl
  | skp x | sknp x =>
    obtain ⟨k, hk⟩ | habove := key_or_above (s.getV x)
    · simp only [exec_skp_of_key hk, exec_sknp_of_key hk] at h
      cases h
      exact .inl rfl
    · simp only [exec_skp_of_no_key habove, exec_sknp_of_no_key habove, reduceCtorEq] at h
  | ldVxK x =>
    rcases exec_ldVxK_cases x s with ⟨-, -, hx⟩ | ⟨k, -, -, -, hx⟩ | ⟨-, -, hx⟩ | ⟨-, -, hx⟩ <;>
      cases hx.symm.trans h <;> exact .inl rfl
  | _ =>
    cases h
    exact .inl rfl

/-- A cycle keeps the memory canonical: it stores in range or not at all. -/
theorem cycle_keeps_memCanonical {s t : State} (hs : MemCanonical s) (h : cycle s = .next t) : MemCanonical t := by
  obtain ⟨i, -, hexec⟩ | ⟨-, -, rfl⟩ := cycle_next_cases h
  · obtain hmem | ⟨vs, hin, hmem⟩ := exec_next_mem hexec
    · rw [MemCanonical, hmem]
      exact hs
    · rw [MemCanonical, hmem]
      exact Memory.writeBytes_wf _ _ _ hs hin
  · exact hs

/-- Settles O20: STEP is one cycle, and drawing its byte leaves memory alone. -/
theorem stepKeepsMemoryCanonical : Obligations.StepKeepsMemoryCanonical := fun s _ hs h =>
  cycle_keeps_memCanonical (s := withDraw s) hs h

/-! ### PC and the return addresses -/

theorem postFetch_toNat {s : State} (h : CanFetch s) : (s.pc + 2).toNat = s.pc.toNat + 2 := by
  bv_omega

theorem skipped_toNat {s : State} (h : CanFetch s) : (s.pc + 4).toNat = s.pc.toNat + 4 := by
  bv_omega

/-- Every PC of the table of R24 is at most 0x10FE; the largest is JP V0's, with V[0] = 255 and addr = 0xFFF. -/
theorem pcAfter_le {s : State} (hfetch : CanFetch s) (hstack : ∀ k : Fin 12, s.stack[k].toNat ≤ 0x1000) (i : Instr) :
    (pcAfter s i).toNat ≤ 0x10FE := by
  have hpc : s.pc.toNat ≤ 0xFFE := hfetch
  have hnext : (s.pc + 2).toNat = s.pc.toNat + 2 := postFetch_toNat hfetch
  have hskip : (s.pc + 4).toNat = s.pc.toNat + 4 := skipped_toNat hfetch
  have haddr (addr : Addr12) : (addr.setWidth 16).toNat ≤ 0xFFF := by
    have hlt := addr.isLt
    rw [BitVec.toNat_setWidth]
    omega
  cases i with
  | jp addr => exact (haddr addr).trans (by decide)
  | call addr =>
    simp only [pcAfter]
    split
    · omega
    · exact (haddr addr).trans (by decide)
  | ret x =>
    simp only [pcAfter]
    split
    · next h => exact (hstack ⟨s.sp.toNat, h.2⟩).trans (by decide)
    · omega
  | jpV0 addr =>
    have hbase := (s.getV 0).isLt
    have hlt := addr.isLt
    rw [pcAfter, BitVec.toNat_ofNat]
    omega
  | seImm | sneImm | seReg | sneReg | skp | sknp | ldVxK =>
    simp only [pcAfter]
    split <;> omega
  | _ => exact hnext.le.trans (by omega)

/-- An instruction leaves each stack slot as it was, or pushes the PC it starts with there. -/
theorem exec_next_slot {i : Instr} {s t : State} (h : exec i s = .next t) (k : Fin 12) :
    t.stack[k] = s.stack[k] ∨ t.stack[k] = s.pc := by
  by_cases hcall : ∃ addr, i = .call addr
  · obtain ⟨addr, rfl⟩ := hcall
    obtain ⟨u, hpush, rfl⟩ | ⟨-, rfl⟩ := execCall_next_cases h
    · obtain ⟨j, -, -, htop, hframe⟩ := push_spec hpush
      by_cases hkj : k = j
      · exact .inr (hkj ▸ htop)
      · exact .inl (hframe (.slot k) (by simp [hkj]))
    · exact .inl rfl
  · exact .inl (onlyTheListedWritersWrite i s t h (.slot k) hcall)

/-- A cycle that completes has fetched below 0xFFF, so PC + 2 is at most 0x1000, and PC goes where R24 says. -/
theorem cycle_keeps_pcBounded {s t : State} (hs : PcBounded s) (h : cycle s = .next t) : PcBounded t := by
  obtain ⟨-, hstack⟩ := hs
  obtain ⟨i, ⟨hfetch, -⟩, hexec⟩ | ⟨hfetch, -, rfl⟩ := cycle_next_cases h
  · refine ⟨exec_beginStep_pc hexec ▸ pcAfter_le hfetch hstack i, fun k => ?_⟩
    obtain hkept | hpushed := exec_next_slot hexec k
    · exact hkept ▸ hstack k
    · rw [hpushed, beginStep_pc, postFetch_toNat hfetch]
      omega
  · refine ⟨?_, hstack⟩
    rw [raise_pc, beginStep_pc, postFetch_toNat hfetch]
    omega

/-- Settles O21: STEP is one cycle, and drawing its byte leaves PC and the stack alone. -/
theorem stepKeepsPcBounded : Obligations.StepKeepsPcBounded := fun s _ hs h =>
  cycle_keeps_pcBounded (s := withDraw s) hs h

/-! ### The key wait -/

/-- Which instruction a STEP executes depends on PC and on what memory reads as alone. -/
theorem Executes.congr {s t : State} {i : Instr} (h : Executes s i) (hpc : t.pc = s.pc)
    (hmem : ∀ a, t.mem.read a = s.mem.read a) : Executes t i := by
  simpa only [Executes, CanFetch, opcodeAt, hpc, hmem] using h

/-- A key wait that leaves KeyDown has put PC back to its own opcode (R236). -/
theorem executes_of_keyDown {s t : State} {x : Reg} (hi : Executes s (.ldVxK x))
    (h : exec (.ldVxK x) s.beginStep = .next t) (hdown : t.kwState = .keyDown) : Executes t (.ldVxK x) := by
  have hpc : s.pc + 2 - 2 = s.pc := BitVec.add_sub_cancel _ _
  rcases exec_ldVxK_cases x s.beginStep with ⟨hstate, -, hx⟩ | ⟨k, -, -, -, hx⟩ | ⟨-, -, hx⟩ | ⟨-, -, hx⟩ <;>
    cases hx.symm.trans h
  · exact hi.congr hpc fun _ => rfl
  · exact hi.congr hpc fun _ => rfl
  · exact hi.congr hpc fun _ => rfl
  · cases hdown

/-- Only the key wait touches KW; any other instruction that finds KeyDown would stand where the key wait does. -/
theorem cycle_keeps_keyWaitAtPc {s t : State} (hs : KeyWaitAtPc s) (h : cycle s = .next t) : KeyWaitAtPc t := by
  intro hdown
  obtain ⟨i, hi, hexec⟩ | ⟨-, ⟨row, hrow⟩, rfl⟩ := cycle_next_cases h
  · by_cases hwait : ∃ x, i = .ldVxK x
    · obtain ⟨x, rfl⟩ := hwait
      exact ⟨x, executes_of_keyDown hi hexec hdown⟩
    · have hkept : t.kwState = s.kwState := onlyTheListedWritersWrite i _ t hexec .kwState hwait
      obtain ⟨x, -, hdecode⟩ := hs (hkept ▸ hdown)
      cases hi.2.symm.trans hdecode
      exact absurd ⟨x, rfl⟩ hwait
  · obtain ⟨x, -, hdecode⟩ := hs hdown
    cases hrow.symm.trans hdecode

/-- Settles O22: STEP is one cycle, and drawing its byte leaves KW, PC and memory alone. -/
theorem stepKeepsKeyWaitAtPc : Obligations.StepKeepsKeyWaitAtPc := fun s _ hs h =>
  cycle_keeps_keyWaitAtPc (s := withDraw s) hs h

/-! ### The host's schedules -/

theorem pcBounded_reset : PcBounded State.reset := by
  unfold PcBounded
  decide

/-- PcBounded does not look at memory, and in the reset state no key wait is in KeyDown. -/
theorem coreInv_reset_with_mem {m : Memory} (h : m.wf) : CoreInv { State.reset with mem := m } :=
  ⟨h, pcBounded_reset, nofun⟩

/-- Settles O23: the reset memory has no cell. -/
theorem resetMeetsTheInvariants : Obligations.ResetMeetsTheInvariants :=
  coreInv_reset_with_mem (m := []) ⟨List.Pairwise.nil, nofun⟩

/-- LOAD stores in range: the font's 80 bytes at 0 and at most 3584 bytes at 0x200 (R291, R292). -/
theorem loadedMemory_wf (font : Font) {rom : List Byte} (h : rom.length ≤ Config.romMax) : (loadedMemory font rom).wf := by
  have hfont : (Memory.writeBytes [] 0 font.toList).wf :=
    Memory.writeBytes_wf _ _ _ ⟨List.Pairwise.nil, nofun⟩ (by simp [Config.memSize])
  refine Memory.writeBytes_wf _ _ _ hfont ?_
  simp only [Config.progBase, Config.romMax, Config.memSize] at h ⊢
  omega

/-- Every operation of the host keeps the three invariants. -/
theorem operate_keeps_coreInv {op : Operation} {s t : State} (hs : CoreInv s) (h : operate op s = .next t) : CoreInv t := by
  cases op with
  | load font rom =>
    obtain ⟨bytes, -, hmax, rfl⟩ := operate_load_next h
    exact coreInv_reset_with_mem (loadedMemory_wf font hmax)
  | step r =>
    obtain ⟨hmem, hpc, hwait⟩ := hs
    exact ⟨cycle_keeps_memCanonical (s := { s with rnd := r }) hmem h,
      cycle_keeps_pcBounded (s := { s with rnd := r }) hpc h, cycle_keeps_keyWaitAtPc (s := { s with rnd := r }) hwait h⟩
  | tick | keySet | fbRead =>
    cases h
    exact hs

/-- A run of operations that completes is one operation and the run of the rest. -/
theorem runOperations_cons_next {op : Operation} {ops : List Operation} {s t : State}
    (h : runOperations (op :: ops) s = .next t) : ∃ u, operate op s = .next u ∧ runOperations ops u = .next t := by
  cases hop : operate op s with
  | next u => exact ⟨u, rfl, by simpa only [runOperations, hop] using h⟩
  | fault f => simp [runOperations, hop] at h
  | refused r => simp [runOperations, hop] at h

/-- Settles O24, by induction on the schedule. -/
theorem hostSchedulesKeepTheInvariants : Obligations.HostSchedulesKeepTheInvariants := by
  intro ops
  induction ops with
  | nil =>
    intro s t hs h
    cases h
    exact hs
  | cons op ops ih =>
    intro s t hs h
    obtain ⟨u, hop, hrest⟩ := runOperations_cons_next h
    exact ih u t (operate_keeps_coreInv hs hop) hrest

end Sys2Proof

/-! The held key: while the remembered key is pressed the key wait goes on under every schedule that leaves that key alone, and its
release delivers the id (spec 45_keypad_timers.md R236, R237). -/

namespace Sys2Proof

open Sys2Proof.Machine

/-- A key wait at PC that remembers a key still pressed. -/
def HoldsKey (x : Reg) (s : State) : Prop := Executes s (.ldVxK x) ∧ s.kwState = .keyDown ∧ s.key s.kwKey = true

/-- What may change while the key `k` is held: the timers, the other keys, and a STEP's input and output. -/
def MovesWhileHeld (k : KeyId) (p : Place) : Prop :=
  p = .dt ∨ p = .st ∨ p = .report ∨ p = .rnd ∨ ∃ j, j ≠ k ∧ p = .key j

theorem exec_ldVxK_of_held {x : Reg} {s : State} (hstate : s.kwState = .keyDown) (hkey : s.key s.kwKey = true) :
    exec (.ldVxK x) s = .next s.retryPc := by
  simp [exec, execLdVxK, hstate, hkey]

theorem exec_ldVxK_of_released {x : Reg} {s : State} (hstate : s.kwState = .keyDown) (hkey : s.key s.kwKey = false) :
    exec (.ldVxK x) s = .next { s.setV x (keyByte s.kwKey) with kwState := .waiting } := by
  simp [exec, execLdVxK, hstate, hkey]

theorem HoldsKey.of_keepsAllBut {x : Reg} {s t : State} (h : HoldsKey x s)
    (hframe : KeepsAllBut (MovesWhileHeld s.kwKey) s t) : HoldsKey x t ∧ t.kwKey = s.kwKey := by
  obtain ⟨hi, hstate, hkey⟩ := h
  have hpc : t.pc = s.pc := hframe .pc (by simp [MovesWhileHeld])
  have hmem (a : Nat) : t.mem.read a = s.mem.read a := hframe (.mem a) (by simp [MovesWhileHeld])
  have hstate' : t.kwState = s.kwState := hframe .kwState (by simp [MovesWhileHeld])
  have hkwKey : t.kwKey = s.kwKey := hframe .kwKey (by simp [MovesWhileHeld])
  have hkey' : t.key s.kwKey = s.key s.kwKey := hframe (.key s.kwKey) (by simp [MovesWhileHeld])
  exact ⟨⟨hi.congr hpc hmem, hstate'.trans hstate, by rw [hkwKey, hkey', hkey]⟩, hkwKey⟩

/-- A STEP of a held wait puts PC back, so only its own input and output have changed. -/
theorem stepWith_of_holdsKey {x : Reg} {s : State} (h : HoldsKey x s) (r : Byte) :
    ∃ t, stepWith r s = .next t ∧ KeepsAllBut (MovesWhileHeld s.kwKey) s t := by
  obtain ⟨hi, hstate, hkey⟩ := h
  obtain ⟨hstep, -⟩ := stepRunsTheDecodedInstruction s _ hi
  refine ⟨_, (hstep r).trans (exec_ldVxK_of_held hstate hkey), fun p hp => ?_⟩
  cases p with
  | pc => exact BitVec.add_sub_cancel s.pc 2
  | report | rnd => simp [MovesWhileHeld] at hp
  | _ => rfl

/-- Every operation that neither reloads nor touches the held key completes and leaves the wait as it is. -/
theorem operate_of_holdsKey {x : Reg} {s : State} {op : Operation} (h : HoldsKey x s) (hop : LeavesKey s.kwKey op) :
    ∃ t, operate op s = .next t ∧ KeepsAllBut (MovesWhileHeld s.kwKey) s t := by
  cases op with
  | load => exact hop.elim
  | step r => exact stepWith_of_holdsKey h r
  | tick => exact ⟨s.tick, rfl, (keepsAllBut_tick s).of_two (.inl rfl) (.inr (.inl rfl))⟩
  | keySet id b =>
    exact ⟨s.keySet id b, rfl, (keepsAllBut_keySet s id b).of_one (.inr (.inr (.inr (.inr ⟨id, hop, rfl⟩))))⟩
  | fbRead => exact ⟨s, rfl, fun p _ => SameAt.refl p s⟩

theorem runOperations_of_holdsKey {x : Reg} {ops : List Operation} {s : State} (h : HoldsKey x s)
    (hops : ∀ op ∈ ops, LeavesKey s.kwKey op) :
    ∃ t, runOperations ops s = .next t ∧ KeepsAllBut (MovesWhileHeld s.kwKey) s t := by
  induction ops generalizing s with
  | nil => exact ⟨s, rfl, fun p _ => SameAt.refl p s⟩
  | cons op ops ih =>
    obtain ⟨u, hu, hframe⟩ := operate_of_holdsKey h (hops op (by simp))
    obtain ⟨hheld, hkwKey⟩ := h.of_keepsAllBut hframe
    obtain ⟨t, ht, hframe'⟩ := ih hheld fun o ho => hkwKey ▸ hops o (by simp [ho])
    exact ⟨t, by simp only [runOperations, hu, ht], hframe.trans (hkwKey ▸ hframe')⟩

/-- Once the held key is released the next STEP delivers its id, moves PC on and ends the wait. -/
theorem stepWith_of_released {x : Reg} {s : State} (h : HoldsKey x s) (r : Byte) :
    ∃ u, stepWith r (s.keySet s.kwKey false) = .next u ∧ (u.getV x).toNat = s.kwKey.val ∧ u.pc = s.pc + 2 ∧
      u.kwState = .waiting := by
  obtain ⟨hi, hstate, -⟩ := h
  have hkey : (s.keySet s.kwKey false).key s.kwKey = false := (key_keySet s _ _ _).trans (if_pos rfl)
  obtain ⟨hstep, -⟩ := stepRunsTheDecodedInstruction (s.keySet s.kwKey false) _ (hi.congr rfl fun _ => rfl)
  refine ⟨_, (hstep r).trans (exec_ldVxK_of_released hstate hkey), ?_, rfl, rfl⟩
  exact (congrArg BitVec.toNat (getV_setV_same _ x _)).trans (keyByte_toNat _)

/-- Settles O52: the schedule keeps the wait, by induction on it, and the release then delivers. -/
theorem heldKeyStallsUntilReleased : Obligations.HeldKeyStallsUntilReleased := by
  intro s x ops hi hstate hkey hops
  have hheld : HoldsKey x s := ⟨hi, hstate, hkey⟩
  obtain ⟨t, ht, hframe⟩ := runOperations_of_holdsKey hheld hops
  obtain ⟨hheld', hkwKey⟩ := hheld.of_keepsAllBut hframe
  have hpc : t.pc = s.pc := hframe .pc (by simp [MovesWhileHeld])
  refine ⟨t, ht, hframe, fun r => ?_⟩
  rw [← hkwKey, ← hpc]
  exact stepWith_of_released hheld' r

end Sys2Proof

/-! What does not matter: a cycle does not look at ST, at the stack slots above SP or, unless it executes RND, at the random byte,
so changing them before it is changing them after it (spec 00_scope.md R5, 10_state.md R25, R27). -/

namespace Sys2Proof

open Sys2Proof.Machine

/-- The state with ST, the stack slots and the random byte replaced. -/
def mapHidden (f : Byte → Byte) (g : Vector Word 12 → Vector Word 12) (h : Byte → Byte) (s : State) : State :=
  { s with st := f s.st, stack := g s.stack, rnd := h s.rnd }

section

variable {f : Byte → Byte} {g : Vector Word 12 → Vector Word 12} {h : Byte → Byte}

theorem setVs_mapHidden (s : State) (k : Nat) (vs : List Byte) :
    (mapHidden f g h s).setVs k vs = mapHidden f g h (s.setVs k vs) := by
  induction vs generalizing s k with
  | nil => rfl
  | cons v vs ih =>
    unfold State.setVs
    split
    · exact ih (s.setV _ v) (k + 1)
    · rfl

theorem skipIf_mapHidden (s : State) (c : Bool) :
    (mapHidden f g h s).skipIf c = mapHidden f g h (s.skipIf c) := by
  cases c <;> rfl

theorem mapNext_guard (m : State → State) (c : Bool) (u : State) (e : Fault) :
    mapNext m (if c then .next u else .fault e) = if c then .next (m u) else .fault e := by
  split <;> rfl

theorem execCall_mapHidden (addr : Addr12) (s : State) :
    execCall addr (mapHidden f id h s) = mapNext (mapHidden f id h) (execCall addr s) := by
  by_cases hd : s.depth.val < 12 <;> simp [execCall, State.push, mapHidden, hd] <;> rfl

theorem execRet_mapHidden (x : Nibble) (s : State) :
    execRet x (mapHidden f id h s) = mapNext (mapHidden f id h) (execRet x s) := by
  by_cases hd : 0 < s.depth.val <;> simp [execRet, State.pop, mapHidden, hd] <;> rfl

theorem execLdVxK_mapHidden (x : Reg) (s : State) :
    execLdVxK x (mapHidden f g h s) = mapNext (mapHidden f g h) (execLdVxK x s) := by
  have hfirst : (mapHidden f g h s).firstKey = s.firstKey := rfl
  have hkey : (mapHidden f g h s).key (mapHidden f g h s).kwKey = s.key s.kwKey := rfl
  have hstate : (mapHidden f g h s).kwState = s.kwState := rfl
  unfold execLdVxK
  rw [hfirst, hkey, hstate]
  cases s.kwState with
  | waiting => cases s.firstKey <;> rfl
  | keyDown => cases s.key s.kwKey <;> rfl

/-- An instruction that reads none of the three places ends alike, and leaves them as it found them. -/
theorem exec_mapHidden {i : Instr} (s : State) (hst : (∃ x, i = .ldStVx x) → f = id)
    (hstack : ((∃ addr, i = .call addr) ∨ ∃ x, i = .ret x) → g = id) (hrnd : (∃ x kk, i = .rnd x kk) → h = id) :
    exec i (mapHidden f g h s) = mapNext (mapHidden f g h) (exec i s) := by
  cases i with
  | ldStVx x =>
    obtain rfl := hst ⟨x, rfl⟩
    rfl
  | rnd x kk =>
    obtain rfl := hrnd ⟨x, kk, rfl⟩
    rfl
  | call addr =>
    obtain rfl := hstack (.inl ⟨addr, rfl⟩)
    exact execCall_mapHidden addr s
  | ret x =>
    obtain rfl := hstack (.inr ⟨x, rfl⟩)
    exact execRet_mapHidden x s
  | drw | ldB | storeRegs =>
    refine Eq.trans ?_ (mapNext_guard _ _ _ _).symm
    rfl
  | loadRegs x =>
    refine Eq.trans ?_ (mapNext_guard _ _ _ _).symm
    rw [← setVs_mapHidden]
    rfl
  | seImm | sneImm | seReg | sneReg => exact congrArg Host.Outcome.next (skipIf_mapHidden s _)
  | skp x | sknp x =>
    obtain ⟨k, hk⟩ | habove := key_or_above (s.getV x)
    · have hk' : ((mapHidden f g h s).getV x).toNat = k.val := hk
      simp only [exec_skp_of_key hk, exec_sknp_of_key hk, exec_skp_of_key hk', exec_sknp_of_key hk']
      rfl
    · have habove' : 15 < ((mapHidden f g h s).getV x).toNat := habove
      simp only [exec_skp_of_no_key habove, exec_sknp_of_no_key habove, exec_skp_of_no_key habove',
        exec_sknp_of_no_key habove']
      rfl
  | ldVxK x => exact execLdVxK_mapHidden x s
  | _ => rfl

/-- The fetch and the decoder read none of the three places either. -/
theorem cycle_mapHidden (s : State) (hst : (∃ x, Executes s (.ldStVx x)) → f = id)
    (hstack : ((∃ addr, Executes s (.call addr)) ∨ ∃ x, Executes s (.ret x)) → g = id)
    (hrnd : (∃ x kk, Executes s (.rnd x kk)) → h = id) :
    cycle (mapHidden f g h s) = mapNext (mapHidden f g h) (cycle s) := by
  by_cases hfetch : CanFetch s
  · cases hdecode : decode (opcodeAt s) with
    | instr i =>
      have hi : Executes s i := ⟨hfetch, hdecode⟩
      have hi' : Executes (mapHidden f g h s) i := hi
      rw [cycle_of_executes hi, cycle_of_executes hi']
      refine exec_mapHidden s.beginStep (fun ⟨x, e⟩ => hst ⟨x, e ▸ hi⟩) (fun e => hstack ?_) fun ⟨x, kk, e⟩ =>
        hrnd ⟨x, kk, e ▸ hi⟩
      obtain ⟨addr, rfl⟩ | ⟨x, rfl⟩ := e
      · exact .inl ⟨addr, hi⟩
      · exact .inr ⟨x, hi⟩
    | undefined row =>
      rw [cycle_of_undefined hfetch hdecode]
      exact cycle_of_undefined (s := mapHidden f g h s) hfetch hdecode
  · have hfetch' : ¬CanFetch (mapHidden f g h s) := hfetch
    rw [cycle_eq, if_neg hfetch', cycle_eq, if_neg hfetch]
    rfl

end

/-- Settles O57: ST is one of the three places, and LD ST, Vx is set aside. -/
theorem soundTimerIsNeverRead : Obligations.SoundTimerIsNeverRead := fun _ s b hi =>
  exec_mapHidden (f := fun _ => b) (g := id) (h := id) s (fun ⟨x, e⟩ => absurd e (hi x)) (fun _ => rfl) fun _ => rfl

/-- Settles O56: the random byte is one of the three places, and RND is set aside. -/
theorem randomByteReachesRndAlone : Obligations.RandomByteReachesRndAlone := fun s r r' hi =>
  cycle_mapHidden (f := id) (g := id) (h := fun _ => r') { s with rnd := r } (fun _ => rfl) (fun _ => rfl)
    fun ⟨x, kk, h⟩ => absurd h (hi x kk)

/-! ### Stale stack slots -/

theorem sameButStaleSlots_iff (s s' : State) :
    SameButStaleSlots s s' ↔
      ∃ k : Vector Word 12, s' = { s with stack := k } ∧ ∀ j : Fin 12, j.val < s.depth.val → k[j] = s.stack[j] := by
  constructor
  · rintro ⟨hs, hslots⟩
    exact ⟨s'.stack, hs, hslots⟩
  · rintro ⟨k, rfl, hslots⟩
    exact ⟨rfl, hslots⟩

/-- CALL writes the slot above SP in both states and reads none. -/
theorem execCall_sameButStaleSlots {addr : Addr12} {s s' t : State} (hs : SameButStaleSlots s s')
    (h : exec (.call addr) s = .next t) : ∃ t', exec (.call addr) s' = .next t' ∧ SameButStaleSlots t t' := by
  obtain ⟨k, rfl, hslots⟩ := (sameButStaleSlots_iff s s').mp hs
  obtain ⟨u, hpush, rfl⟩ | ⟨hfull, rfl⟩ := execCall_next_cases h
  · obtain ⟨hlt, rfl⟩ := (push_eq_some _ _ _).mp hpush
    refine ⟨_, exec_call_of_push addr ((push_eq_some _ _ _).mpr ⟨hlt, rfl⟩), rfl, fun j hj => ?_⟩
    have hj' : j.val < s.depth.val + 1 := hj
    simp only [setPc_stack, Fin.getElem_fin, Vector.getElem_set]
    split
    · rfl
    · exact hslots j (by omega)
  · exact ⟨_, exec_call_of_full addr ((push_eq_none _ _).mpr ((push_eq_none s _).mp hfull)), rfl, hslots⟩

/-- RET reads the slot at SP, in which the two states agree. -/
theorem execRet_sameButStaleSlots {x : Nibble} {s s' t : State} (hs : SameButStaleSlots s s')
    (h : exec (.ret x) s = .next t) : ∃ t', exec (.ret x) s' = .next t' ∧ SameButStaleSlots t t' := by
  obtain ⟨k, rfl, hslots⟩ := (sameButStaleSlots_iff s s').mp hs
  obtain ⟨a, u, hpop, rfl⟩ | ⟨hempty, rfl⟩ := execRet_next_cases h
  · obtain ⟨hpos, rfl, rfl⟩ := (pop_eq_some _ _ _).mp hpop
    have hlt := s.depth.isLt
    have htop : s.stack[s.depth.val - 1] = k[s.depth.val - 1] :=
      (hslots ⟨s.depth.val - 1, by omega⟩ (Nat.sub_lt hpos Nat.one_pos)).symm
    refine ⟨_, exec_ret_of_pop x ((pop_eq_some _ _ _).mpr ⟨hpos, htop, rfl⟩), rfl, fun j hj => hslots j ?_⟩
    have hj' : j.val < s.depth.val - 1 := hj
    omega
  · exact ⟨_, exec_ret_of_empty x ((pop_eq_none _).mpr ((pop_eq_none s).mp hempty)), rfl, hslots⟩

/-- An instruction that ends in a next state does so from both states. -/
theorem exec_sameButStaleSlots {i : Instr} {s s' t : State} (hs : SameButStaleSlots s s') (h : exec i s = .next t) :
    ∃ t', exec i s' = .next t' ∧ SameButStaleSlots t t' := by
  by_cases hcall : ∃ addr, i = .call addr
  · obtain ⟨addr, rfl⟩ := hcall
    exact execCall_sameButStaleSlots hs h
  by_cases hret : ∃ x, i = .ret x
  · obtain ⟨x, rfl⟩ := hret
    exact execRet_sameButStaleSlots hs h
  obtain ⟨k, rfl, hslots⟩ := (sameButStaleSlots_iff s s').mp hs
  have hmap := exec_mapHidden (i := i) (f := id) (g := fun _ => k) (h := id) s (fun _ => rfl)
    (fun e => absurd e (not_or.mpr ⟨hcall, hret⟩)) fun _ => rfl
  rw [h] at hmap
  refine ⟨_, hmap, rfl, fun j hj => ?_⟩
  have hslot : t.stack[j] = s.stack[j] := onlyTheListedWritersWrite i s t h (.slot j) hcall
  have hsp : t.sp = s.sp := onlyTheListedWritersWrite i s t h .sp (not_or.mpr ⟨hcall, hret⟩)
  have hdepth : t.depth.val = s.depth.val := by
    unfold State.sp at hsp
    omega
  exact (hslots j (hdepth ▸ hj)).trans hslot.symm

theorem stopReason_sameButStaleSlots {s s' : State} (hs : SameButStaleSlots s s') : stopReason s' = stopReason s := by
  obtain ⟨k, rfl, -⟩ := (sameButStaleSlots_iff s s').mp hs
  rfl

theorem cycle_sameButStaleSlots {s s' t : State} (hs : SameButStaleSlots s s') (h : cycle s = .next t) :
    ∃ t', cycle s' = .next t' ∧ SameButStaleSlots t t' := by
  obtain ⟨k, rfl, hslots⟩ := (sameButStaleSlots_iff s s').mp hs
  obtain ⟨i, hi, hexec⟩ | ⟨hfetch, ⟨row, hrow⟩, rfl⟩ := cycle_next_cases h
  · have hi' : Executes { s with stack := k } i := hi
    rw [cycle_of_executes hi']
    exact exec_sameButStaleSlots (s := s.beginStep) ⟨rfl, hslots⟩ hexec
  · exact ⟨_, cycle_of_undefined (s := { s with stack := k }) hfetch hrow, rfl, hslots⟩

/-- Settles O58: both STEPs execute one instruction, which reads no slot above SP, and stops depend on no slot at all. -/
theorem staleStackSlotsAreUnobservable : Obligations.StaleStackSlotsAreUnobservable := by
  intro s s' hs
  constructor
  · intro t h
    obtain ⟨k, rfl, hslots⟩ := (sameButStaleSlots_iff s s').mp hs
    exact cycle_sameButStaleSlots (s := withDraw s) (s' := withDraw { s with stack := k }) ⟨rfl, hslots⟩ h
  · intro f h
    rw [stepStopsExactlyAsListed] at h ⊢
    rw [stopReason_sameButStaleSlots hs, h]

end Sys2Proof
